-- ==== Sys2Proof/Word.lean ====
section
/-! DEFINITION. The word type of SCS-CORE: every data register is 64 bits wide (R7, R8). -/

namespace Sys2Proof

/-- A 64-bit register, bus word or command word; bit 0 is the least significant (R7, R9). -/
abbrev Word := BitVec 64

/-- One byte lane of a bus word (R62). -/
abbrev Byte := BitVec 8

end Sys2Proof
end

