-- ==== Sys2Proof/Syntax.lean ====
section
/-! DEFINITION. The commands of SCS-CORE, one constructor per row of spec/opcode_table.json, in the table's order (R82). -/

namespace Sys2Proof

/-- A legal command. The data operands are not in the command word: they come from the registers R84 lists. Only BBS_NEXT and
PERM carry an argument, the unsigned 8-bit ARG field (R80, R81). -/
inductive Instr where
  /-- NOP, OP 0x00 (R110). -/
  | nop
  /-- CLEAR, OP 0x01 (R111). -/
  | clear
  /-- MODEXP, OP 0x10 (R124). -/
  | modexp
  /-- LEGENDRE, OP 0x11 (R128). -/
  | legendre
  /-- BBS_SEED, OP 0x20 (R142). -/
  | bbsSeed
  /-- BBS_NEXT, OP 0x21, ARG = the bit count (R145). -/
  | bbsNext (count : Nat)
  /-- KEYGEN, OP 0x22 (R148). -/
  | keygen
  /-- KEYSCHED, OP 0x30 (R177). -/
  | keysched
  /-- ENC, OP 0x31 (R180). -/
  | enc
  /-- DEC, OP 0x32 (R183). -/
  | dec
  /-- FROUND, OP 0x33 (R174). -/
  | fround
  /-- FFUNC, OP 0x34 (R171). -/
  | ffunc
  /-- PERM, OP 0x38, ARG = the table selector (R169). -/
  | perm (sel : Nat)
  deriving DecidableEq, Repr

end Sys2Proof
end

