-- ==== Sys2Proof/WellFormed.lean ====
section
/-! DEFINITION. Which terms of `Instr` a command word can carry: ARG is an 8-bit unsigned field (R80, R81). A count above 64 or a
selector above 8 is well formed: it is an operand error of its command, not an illegal word (R83). -/

namespace Sys2Proof

/-- The argument of a command fits the 8-bit ARG field (R80, R82). -/
def Instr.wellFormed : Instr → Bool
  | .nop => true
  | .clear => true
  | .modexp => true
  | .legendre => true
  | .bbsSeed => true
  | .bbsNext count => count < 2 ^ 8
  | .keygen => true
  | .keysched => true
  | .enc => true
  | .dec => true
  | .fround => true
  | .ffunc => true
  | .perm sel => sel < 2 ^ 8

/-- `i` can be written as a command word. -/
abbrev Instr.WellFormed (i : Instr) : Prop := i.wellFormed = true

end Sys2Proof
end

