-- ==== Sys2Proof/Decode.lean ====
section
/-! DEFINITION. The command decoder and encoder (30_encoding.md R80 to R87). The decoder is total: every 64-bit word selects one
row of R82 or is illegal, and an illegal word is rejected by name. -/

namespace Sys2Proof

/-- Why a command word is illegal (R83). Every one of these ends the command in error ILLEGAL. -/
inductive DecodeError where
  /-- The OP field is none of the thirteen of R82. -/
  | unknownOpcode
  /-- A bit of RSVD, bits 63:16, is set. -/
  | reservedBitSet
  /-- ARG is nonzero on an opcode that takes no argument. -/
  | argumentNotZero
  deriving DecidableEq, Repr

/-- The OP field of a command word, bits 7:0 (R80). -/
def cmdOp (w : Word) : Byte := w.extractLsb' 0 8

/-- The ARG field of a command word, bits 15:8, unsigned (R80, R81). -/
def cmdArg (w : Word) : Nat := (w.extractLsb' 8 8).toNat

/-- The RSVD field of a command word, bits 63:16 (R80). -/
def cmdRsvd (w : Word) : BitVec 48 := w.extractLsb' 16 48

/-- One row of the opcode map: a word selects it when `w & mask = pattern` (R82). -/
structure OpcodeRow where
  pattern : Word
  mask : Word
  build : Nat → Instr

/-- The mask of a row whose ARG must be 0. -/
def wholeWordMask : Word := 0xFFFFFFFFFFFFFFFF#64

/-- The mask of a row that takes an argument. -/
def argMask : Word := 0xFFFFFFFFFFFF00FF#64

/-- The opcode map of R82, in its order. -/
def opcodeTable : List OpcodeRow :=
  [ ⟨0x00#64, wholeWordMask, fun _ => .nop⟩,
    ⟨0x01#64, wholeWordMask, fun _ => .clear⟩,
    ⟨0x10#64, wholeWordMask, fun _ => .modexp⟩,
    ⟨0x11#64, wholeWordMask, fun _ => .legendre⟩,
    ⟨0x20#64, wholeWordMask, fun _ => .bbsSeed⟩,
    ⟨0x21#64, argMask, fun arg => .bbsNext arg⟩,
    ⟨0x22#64, wholeWordMask, fun _ => .keygen⟩,
    ⟨0x30#64, wholeWordMask, fun _ => .keysched⟩,
    ⟨0x31#64, wholeWordMask, fun _ => .enc⟩,
    ⟨0x32#64, wholeWordMask, fun _ => .dec⟩,
    ⟨0x33#64, wholeWordMask, fun _ => .fround⟩,
    ⟨0x34#64, wholeWordMask, fun _ => .ffunc⟩,
    ⟨0x38#64, argMask, fun arg => .perm arg⟩ ]

/-- The word selects the row (R82). -/
def OpcodeRow.selects (r : OpcodeRow) (w : Word) : Bool := w &&& r.mask == r.pattern

/-- The name of an illegal word's fault (R83): first the OP field, then RSVD, then ARG (DESIGN CHOICE, log entry 19). -/
def illegalReason (w : Word) : DecodeError :=
  if (opcodeTable.map (fun r => r.pattern.extractLsb' 0 8)).contains (cmdOp w) then
    if cmdRsvd w = 0#48 then .argumentNotZero else .reservedBitSet
  else .unknownOpcode

/-- The command a word stands for, or why it stands for none (R82, R83, R87). -/
def decodeWord (w : Word) : Except DecodeError Instr :=
  match opcodeTable.find? (fun r => r.selects w) with
  | some r => .ok (r.build (cmdArg w))
  | none => .error (illegalReason w)

/-- The decoder on a row of spec/opcode_table.json: `w` holds the row's `nbits` bits, every bit above them is 0, and a command word
is one 64-bit bus word (R80). -/
def decodeTableWord (nbits w : Nat) : Option Instr :=
  if w % 2 ^ nbits < 2 ^ 64 then (decodeWord (BitVec.ofNat 64 (w % 2 ^ nbits))).toOption else none

/-- The OP field of each command (R82). -/
def Instr.opcode : Instr → Nat
  | .nop => 0x00
  | .clear => 0x01
  | .modexp => 0x10
  | .legendre => 0x11
  | .bbsSeed => 0x20
  | .bbsNext _ => 0x21
  | .keygen => 0x22
  | .keysched => 0x30
  | .enc => 0x31
  | .dec => 0x32
  | .fround => 0x33
  | .ffunc => 0x34
  | .perm _ => 0x38

/-- The ARG field of each command: 0 unless R82 gives it an argument. -/
def Instr.argument : Instr → Nat
  | .bbsNext count => count
  | .perm sel => sel
  | .nop | .clear | .modexp | .legendre | .bbsSeed | .keygen | .keysched | .enc | .dec | .fround | .ffunc => 0

/-- The command word of an instruction: `argument·0x100 + opcode`, RSVD zero (R80, R88). -/
def encode (i : Instr) : Word := BitVec.ofNat 64 (i.argument * 0x100 + i.opcode)

end Sys2Proof
end

