-- ==== Sys2Proof/Config.lean ====
section
/-! DEFINITION. The OPEN parameters of the specification (R8, 93_implementation_defined.md) and the free values of the model.
An `opaque` constant has no body, so no proof can learn its value. The fixed parameters of R8 stand in Machine/Tables.lean. -/

namespace Sys2Proof

/-- Who acts in one step of the machine. R15 gives two agents, the host and the engine; the reset input (R230) is the outside
world's. -/
inductive Turn where
  /-- The host performs its next bus access, if it has one. -/
  | host
  /-- The engine performs one engine step, if it is busy (R106). -/
  | engine
  /-- The reset input becomes asserted (R230). -/
  | assertReset
  /-- The reset input is released (R230). -/
  | releaseReset
  deriving DecidableEq, Repr, Inhabited

/-- The two reference algorithms `MODEXP_ALGO` may name (R8, R122, R123). They change no value. -/
inductive ModexpAlgo where
  /-- Left-to-right binary square-and-multiply (R122). -/
  | binaryLR
  /-- The Montgomery ladder (R123). -/
  | ladder
  deriving DecidableEq, Repr

/-- FREE VALUE (log entry 3). `LAT(w, operands) - 1`: the latency of a command beyond the one engine step every command takes
(R8, R101, R240). It is used only where `State.latencies` names no latency. -/
opaque Config.extraLatency : Word → List Word → Nat

/-- FREE VALUE (log entry 2). The turns that come before the engine's next turn, whoever takes them: R106 lets host and engine steps
interleave in any order and reset can arrive at any time, so nothing constrains the list. It is finite, which is the weak fairness
that R240 tells a model to assume. It is used only where `State.schedule` names no turn. -/
opaque Config.freeTurns : Nat → List Turn

/-- FREE VALUE (log entry 21). The platform's choice of `BASE`, counted in windows of 0x100 bytes (R61: OPEN). -/
opaque Config.baseWindow : Nat

/-- `BASE`, the bus address of the register window; R61 requires a multiple of 0x100. -/
def Config.base : Nat := 0x100 * Config.baseWindow

end Sys2Proof
end

