-- ==== Sys2Proof/Machine/Bits.lean ====
section
/-! DEFINITION. The bit primitives of the pseudocode (R9, R11) and the field helpers for 64-bit registers and byte lanes. -/

namespace Sys2Proof.Machine

/-- `v[hi:lo]`, the unsigned field of bits `hi` down to `lo` (R9). -/
def natField (v hi lo : Nat) : Nat := v / 2 ^ lo % 2 ^ (hi - lo + 1)

/-- `rotl_n(x, s)`, the circular left shift of an n-bit `x` by `s` (R11). -/
def rotl (n x s : Nat) : Nat := x * 2 ^ s % 2 ^ n + x / 2 ^ (n - s)

/-- A natural number as a 64-bit register value (`zext_64`, R11: every value stored is below 2^64;
log entry 20). -/
def toWord (v : Nat) : Word := BitVec.ofNat 64 v

/-- The field of `len` bits of a register from bit `lo` up (R9). -/
def wordField (w : Word) (lo len : Nat) : BitVec len := w.extractLsb' lo len

/-- The register with its field of `len` bits at bit `lo` replaced by `v`; every other bit is kept. -/
def withWordField (w : Word) (lo : Nat) {len : Nat} (v : BitVec len) : Word :=
  (w &&& ~~~((BitVec.allOnes len).setWidth 64 <<< lo)) ||| (v.setWidth 64 <<< lo)

/-- Byte lane `j` of a bus word: register bits `8j+7 : 8j` (R62, little-endian). -/
def laneByte (v : Word) (j : Nat) : Byte := v.extractLsb' (8 * j) 8

end Sys2Proof.Machine
end

