-- ==== Sys2Proof/Machine/Tables.lean ====
section
/-! DEFINITION. The fixed parameters of R8, the Feistel table record `FEISTEL_TABLES` with its default (R160), what makes a record
legal (R161 to R163), and the one generic "apply permutation" operation (R162). -/

namespace Sys2Proof.Machine

/-- `KEY_W`, the cipher key width (R8). -/
def keyW : Nat := 10
/-- `SUBKEY_W`, the round subkey width (R8). -/
def subkeyW : Nat := 8
/-- `BLOCK_W`, the cipher block width (R8). -/
def blockW : Nat := 8
/-- `HALF_W`, the width of a Feistel half (R8). -/
def halfW : Nat := 4
/-- `K1_SHIFT`, the rotation of each key half for subkey 1 (R8, R167). -/
def k1Shift : Nat := 1
/-- `K2_SHIFT`, the total rotation relative to the P10 output for subkey 2 (R8, R167; 90_conflicts.md C1 chooses 2, not 3). -/
def k2Shift : Nat := 2
/-- `BBS_MAX_COUNT`, the largest legal BBS_NEXT count (R8, R145). -/
def bbsMaxCount : Nat := 64

/-- `perm(T, w, v)` in gather form: output position k takes input position `T[k]`, position 1 being the most significant bit
(R10, R162). -/
def perm (table : List Nat) (w v : Nat) : Nat :=
  table.foldl (fun acc t => acc * 2 + (v.testBit (w - t)).toNat) 0

/-- How an S-box reads its row and column from its 4-bit input (R164). -/
inductive SboxIndex where
  /-- Row from the outer bits, column from the inner bits: the default. -/
  | outer
  /-- Row from bits 3:2, column from bits 1:0. -/
  | split
  deriving DecidableEq, Repr

/-- The configuration record `FEISTEL_TABLES` (R8, R160). Entries of the permutation tables are table positions (R10). -/
structure FeistelTables where
  p10 : List Nat
  p8 : List Nat
  ip : List Nat
  ipinv : List Nat
  ep : List Nat
  p4 : List Nat
  s0 : List (List (Fin 4))
  s1 : List (List (Fin 4))
  sboxIndex : SboxIndex
  deriving DecidableEq, Repr

/-- The default record (R160; the spec marks its values as general knowledge, log entry 6). -/
def defaultTables : FeistelTables where
  p10 := [3, 5, 2, 7, 4, 10, 1, 9, 8, 6]
  p8 := [6, 3, 7, 4, 8, 5, 10, 9]
  ip := [2, 6, 3, 1, 4, 8, 5, 7]
  ipinv := [4, 1, 3, 5, 7, 2, 8, 6]
  ep := [4, 1, 2, 3, 2, 3, 4, 1]
  p4 := [2, 4, 3, 1]
  s0 := [[1, 0, 3, 2], [3, 2, 1, 0], [0, 2, 1, 3], [3, 1, 3, 2]]
  s1 := [[0, 1, 2, 3], [2, 0, 1, 3], [3, 0, 1, 0], [2, 1, 0, 3]]
  sboxIndex := .outer

/-- SW, the half swap: "the caller swaps halves" (R160). -/
def swTable : List Nat := [5, 6, 7, 8, 1, 2, 3, 4]
/-- LS1: each 5-bit half rotated left by 1 (R160). -/
def ls1Table : List Nat := [2, 3, 4, 5, 1, 7, 8, 9, 10, 6]
/-- LS2: each 5-bit half rotated left by 2 in total (R160). -/
def ls2Table : List Nat := [3, 4, 5, 1, 2, 8, 9, 10, 6, 7]

/-- A permutation table of `n` entries over an input of width `w`: every entry satisfies 1 ≤ T[k] ≤ w (R162). -/
def tableShape (table : List Nat) (w n : Nat) : Bool :=
  table.length == n && table.all (fun t => decide (1 ≤ t ∧ t ≤ w))

/-- An S-box is a 4×4 table (R161). -/
def sboxShape (box : List (List (Fin 4))) : Bool :=
  box.length == 4 && box.all (fun row => row.length == 4)

/-- What R161 to R163 require of any record: the shapes, that P10, IP, IPINV and P4 are permutations and P8 selects 8 of 10 bits, that
each half of EP is one of the "two fixed expansion permutations" of the 4-bit right half (R160: EP1 the high half, EP2 the low), and
that IPINV undoes IP on every 8-bit value. -/
def FeistelTables.legal (ft : FeistelTables) : Bool :=
  tableShape ft.p10 10 10 && decide ft.p10.Nodup &&
  tableShape ft.p8 10 8 && decide ft.p8.Nodup &&
  tableShape ft.ip 8 8 && decide ft.ip.Nodup &&
  tableShape ft.ipinv 8 8 && decide ft.ipinv.Nodup &&
  tableShape ft.ep 4 8 && decide (ft.ep.take 4).Nodup && decide (ft.ep.drop 4).Nodup &&
  tableShape ft.p4 4 4 && decide ft.p4.Nodup &&
  sboxShape ft.s0 && sboxShape ft.s1 &&
  (List.range 256).all (fun v => perm ft.ipinv 8 (perm ft.ip 8 v) == v)

/-- The nine tables of the permutation unit mu (R160, R169). -/
inductive MuTable where
  | ip | ipinv | p10 | p8 | p4 | ep | sw | ls1 | ls2
  deriving DecidableEq, Repr

/-- The table a PERM selector names; selectors above 8 name none (R169). -/
def MuTable.ofSelector : Nat → Option MuTable
  | 0 => some .ip
  | 1 => some .ipinv
  | 2 => some .p10
  | 3 => some .p8
  | 4 => some .p4
  | 5 => some .ep
  | 6 => some .sw
  | 7 => some .ls1
  | 8 => some .ls2
  | _ => none

/-- The selector of a table (R169, R88). -/
def MuTable.selector : MuTable → Nat
  | .ip => 0
  | .ipinv => 1
  | .p10 => 2
  | .p8 => 3
  | .p4 => 4
  | .ep => 5
  | .sw => 6
  | .ls1 => 7
  | .ls2 => 8

/-- The input width of a table (R169). -/
def MuTable.inputWidth : MuTable → Nat
  | .ip | .ipinv | .sw => 8
  | .p10 | .p8 | .ls1 | .ls2 => 10
  | .p4 | .ep => 4

/-- The output width of a table (R169). -/
def MuTable.outputWidth : MuTable → Nat
  | .ip | .ipinv | .sw | .p8 | .ep => 8
  | .p10 | .ls1 | .ls2 => 10
  | .p4 => 4

/-- The entries of a table under a record (R160). -/
def MuTable.entries (ft : FeistelTables) : MuTable → List Nat
  | .ip => ft.ip
  | .ipinv => ft.ipinv
  | .p10 => ft.p10
  | .p8 => ft.p8
  | .p4 => ft.p4
  | .ep => ft.ep
  | .sw => swTable
  | .ls1 => ls1Table
  | .ls2 => ls2Table

end Sys2Proof.Machine
end

