-- ==== Sys2Proof/Machine/Arith.lean ====
section
/-! DEFINITION. The arithmetic of the five functions, over natural numbers with exact products (R120): modular power with both
reference algorithms, the BBS step and accumulation, the Feistel functions and the key schedule. -/

namespace Sys2Proof.Machine

/-! ## Modular exponentiation (R121 to R123) -/

/-- The loop of BINARY_LR over the exponent bits `i-1` down to 0 (R122). -/
def binaryLRLoop (bb e m : Nat) : Nat → Nat → Nat
  | 0, r => r
  | i + 1, r =>
    binaryLRLoop bb e m i (if e.testBit i then (r * r % m) * bb % m else r * r % m)

/-- Reference algorithm BINARY_LR (R122). -/
def binaryLR (b e m : Nat) : Nat := binaryLRLoop (b % m) e m 64 (1 % m)

/-- The loop of LADDER over the exponent bits `i-1` down to 0 (R123). -/
def ladderLoop (e m : Nat) : Nat → Nat → Nat → Nat
  | 0, r0, _ => r0
  | i + 1, r0, r1 =>
    if e.testBit i then ladderLoop e m i (r0 * r1 % m) (r1 * r1 % m)
    else ladderLoop e m i (r0 * r0 % m) (r0 * r1 % m)

/-- Reference algorithm LADDER (R123). -/
def ladder (b e m : Nat) : Nat := ladderLoop e m 64 (1 % m) (b % m)

/-- The modular exponentiation under either value of MODEXP_ALGO (R8, R123). -/
def modPowBy : ModexpAlgo → Nat → Nat → Nat → Nat
  | .binaryLR => binaryLR
  | .ladder => ladder

/-- `modpow(b, e, m) = (b ** e) mod m`, the mathematical function of R121, computed by BINARY_LR so that 64-bit exponents can be
evaluated (log entry 5); `modPow_eq` (Laws/Arith.lean) says that the two agree. -/
def modPow (b e m : Nat) : Nat := modPowBy .binaryLR b e m

/-- `euler(a, p)` of Euler's criterion (R127). -/
def eulerValue (a p : Nat) : Nat := modPow a ((p - 1) / 2) p

/-! ## The quadratic-residue CSPRNG (R143, R144) -/

/-- One BBS step: the new residue and the emitted bit (R143). -/
def bbsStep (x n : Nat) : Nat × Nat := (x * x % n, x * x % n % 2)

/-- `c` BBS steps from residue `x` with the bits accumulated most significant first onto `out` (R144, R145). -/
def bbsRun (n : Nat) : Nat → Nat → Nat → Nat × Nat
  | 0, x, out => (x, out)
  | c + 1, x, out => bbsRun n c (bbsStep x n).1 (out * 2 + (bbsStep x n).2)

/-! ## The Feistel cipher (R164 to R168) -/

/-- The row an S-box input selects (R164). -/
def sboxRow (ix : SboxIndex) (x : Nat) : Nat :=
  match ix with
  | .outer => 2 * natField x 3 3 + natField x 0 0
  | .split => natField x 3 2

/-- The column an S-box input selects (R164). -/
def sboxCol (ix : SboxIndex) (x : Nat) : Nat :=
  match ix with
  | .outer => 2 * natField x 2 2 + natField x 1 1
  | .split => natField x 1 0

/-- `sbox(S, x) = S[row(x)][col(x)]`, a 2-bit result (R164). -/
def sbox (ix : SboxIndex) (box : List (List (Fin 4))) (x : Nat) : Nat :=
  ((box.getD (sboxRow ix x) []).getD (sboxCol ix x) 0).val

/-- The round function `F(r, sk)` (R165). -/
def roundFunction (ft : FeistelTables) (r sk : Nat) : Nat :=
  let e := perm ft.ep 4 r
  let t0 := natField e 7 4 ^^^ natField sk 7 4
  let t1 := natField e 3 0 ^^^ natField sk 3 0
  perm ft.p4 4 (sbox ft.sboxIndex ft.s0 t0 * 4 + sbox ft.sboxIndex ft.s1 t1)

/-- The Feistel round `fK(b, sk)`; it does not swap the halves (R166). -/
def feistelRound (ft : FeistelTables) (b sk : Nat) : Nat :=
  (natField b 7 4 ^^^ roundFunction ft (natField b 3 0) sk) * 16 + natField b 3 0

/-- One subkey: both halves of the P10 output rotated by `shift`, then P8 (R167). -/
def subkey (ft : FeistelTables) (k shift : Nat) : Nat :=
  let t := perm ft.p10 10 k
  perm ft.p8 10 (rotl 5 (natField t 9 5) shift * 32 + rotl 5 (natField t 4 0) shift)

/-- The key schedule `schedule(k) = (sk1, sk2)` (R167). -/
def schedule (ft : FeistelTables) (k : Nat) : Nat × Nat := (subkey ft k k1Shift, subkey ft k k2Shift)

/-- The contents of SUBKEYS for a pair of subkeys: SK1 in bits 15:8, SK2 in bits 7:0 (R28). -/
def packSubkeys (sks : Nat × Nat) : Nat := sks.1 * 2 ^ 8 + sks.2

/-- `enc(b, sk1, sk2)` (R168). -/
def encBlock (ft : FeistelTables) (b sk1 sk2 : Nat) : Nat :=
  perm ft.ipinv 8 (feistelRound ft (perm swTable 8 (feistelRound ft (perm ft.ip 8 b) sk1)) sk2)

/-- `dec(c, sk1, sk2) = enc(c, sk2, sk1)` (R168). -/
def decBlock (ft : FeistelTables) (c sk1 sk2 : Nat) : Nat := encBlock ft c sk2 sk1

end Sys2Proof.Machine
end

