-- ==== Sys2Proof/Machine/State.lean ====
section
/-! DEFINITION. The state of the machine (10_state.md), its two agents' pending work (R15), the reasons a step can stop, and the
state after reset (R230). -/

namespace Sys2Proof.Machine

/-- Why the machine stops with a fault. A command's own error is none of these: the spec gives it an entry (R105, R203), so it is a
next state with STATUS.ERR set. -/
inductive Fault where
  /-- Raised by a host bus access whose offset is not below 0x100: the block claims no address outside its window (R60,
  R61; DEDUCED, log entry 8). Safe. -/
  | accessOutsideWindow
  deriving DecidableEq, Repr

/-- Why the machine gives a step no meaning. -/
inductive Refusal where
  /-- Raised by an arm of `exec` whose command has no meaning yet; no arm raises it now. Safe. -/
  | notModelled (mnemonic : String)
  /-- Raised by a host bus access that is not 8 bytes wide or not 8-byte aligned: "A model refuses such an access" (R63). Safe. -/
  | unsupportedAccess
  /-- Raised by a host bus access while reset is asserted, which is outside the specification (R232). Safe. -/
  | accessDuringReset
  deriving DecidableEq, Repr

/-- The twelve defined slots of the register window (R20). -/
inductive Reg where
  | cmd | status | opa | opb | opm | result | key | subkeys | bbsP | bbsQ | bbsN | bbsX
  deriving DecidableEq, Repr

/-- One pending action of the host agent (R12, R15, R89). -/
inductive HostOp where
  /-- `BusRead(off, width)`. -/
  | read (off width : Nat)
  /-- `BusWrite(off, width, value)`. -/
  | write (off width : Nat) (value : Word)
  /-- `wait`: read STATUS again and again until a read returns BUSY = 0 (R89). -/
  | wait
  deriving DecidableEq, Repr

/-- What the host saw: a bus read of an offset returned a value. -/
structure BusRead where
  off : Nat
  value : Word
  deriving DecidableEq, Repr

/-- The engine's own state (R30, R106): idle, or running the latched command word with the remaining latency in engine steps
(no progress field, as R30 allows: log entry 12). -/
inductive Engine where
  | idle
  | busy (cmdWord : Word) (lat : Nat)
  deriving DecidableEq, Repr

/-- The whole machine. CMD has no storage: it is write-only and reads 0 (R20, R66). -/
structure State where
  /-- Operand A (R20, R21). -/
  opa : Word
  /-- Operand B (R20, R21). -/
  opb : Word
  /-- Operand M, the modulus or the second prime (R20, R21). -/
  opm : Word
  /-- Result of the last successful command (R24). -/
  result : Word
  /-- Cipher key; all 64 bits are stored (R27). -/
  key : Word
  /-- SK1 in bits 15:8, SK2 in bits 7:0 (R28). -/
  subkeys : Word
  /-- CSPRNG prime p (R25). -/
  bbsP : Word
  /-- CSPRNG prime q (R25). -/
  bbsQ : Word
  /-- CSPRNG modulus N (R25). -/
  bbsN : Word
  /-- CSPRNG residue X (R25). -/
  bbsX : Word
  /-- STATUS, laid out by R22; its fields are read and written through Machine/Flags.lean. -/
  status : Word
  /-- The engine's hidden state (R30). -/
  engine : Engine
  /-- The constant Feistel tables inside the block (R29, R160; log entry 9). -/
  tables : FeistelTables
  /-- The reset input is asserted (R230). -/
  resetAsserted : Bool
  /-- The host agent: the accesses it still has to perform, in program order (R15, R67; log entry 14). -/
  program : List HostOp
  /-- The host agent: what its reads returned, oldest first (log entry 15). -/
  observed : List BusRead
  /-- MODEL'S OWN INPUT: who acts in the coming steps (R106); where it is empty `Config.freeTurns` decides
  (DESIGN CHOICE, log entry 2). -/
  schedule : List Turn
  /-- MODEL'S OWN INPUT: latencies, less 1, of the commands to be accepted next (R101); where it is empty `Config.extraLatency`
  decides (DESIGN CHOICE, log entry 3). -/
  latencies : List Nat
  /-- MODEL'S OWN COUNTER: turns taken, the argument of `Config.freeTurns`. -/
  turns : Nat
  deriving DecidableEq, Repr

/-- The state right after reset: every register 0 and the engine idle (R230), the tables at their default (R160, R231), the reset
input released, and nothing loaded into the host agent (log entries 1, 4, 6). -/
def State.reset : State where
  opa := 0#64
  opb := 0#64
  opm := 0#64
  result := 0#64
  key := 0#64
  subkeys := 0#64
  bbsP := 0#64
  bbsQ := 0#64
  bbsN := 0#64
  bbsX := 0#64
  status := 0#64
  engine := .idle
  tables := defaultTables
  resetAsserted := false
  program := []
  observed := []
  schedule := []
  latencies := []
  turns := 0

end Sys2Proof.Machine
end

