-- ==== Sys2Proof/Machine/Flags.lean ====
section
/-! DEFINITION. The fields of STATUS (R22), the error codes (R200), and every STATUS update of the life cycle. -/

namespace Sys2Proof.Machine

/-! ## The fields of a STATUS word (R22) -/

/-- Bit 0: a command is running. -/
def Status.busy (st : Word) : Bool := st.getLsbD 0
/-- Bit 1: the last accepted command has completed. -/
def Status.done (st : Word) : Bool := st.getLsbD 1
/-- Bit 2: a command ended in an error; only CLEAR is accepted. -/
def Status.err (st : Word) : Bool := st.getLsbD 2
/-- Bit 3: a CMD, OPA, OPB, OPM or KEY write was dropped. -/
def Status.lost (st : Word) : Bool := st.getLsbD 3
/-- Bit 4: the BBS registers hold a seeded state. -/
def Status.bbsv (st : Word) : Bool := st.getLsbD 4
/-- Bit 5: SUBKEYS holds the schedule of the current KEY. -/
def Status.skv (st : Word) : Bool := st.getLsbD 5
/-- Bits 11:8: the code of the error that set ERR. -/
def Status.errCode (st : Word) : BitVec 4 := wordField st 8 4
/-- Bits 23:16: the OP field of the last accepted CMD word. -/
def Status.lastOp (st : Word) : Byte := wordField st 16 8

/-- One bit of STATUS written, every other bit kept. -/
def withStatusBit (st : Word) (i : Nat) (b : Bool) : Word := withWordField st i (BitVec.ofBool b)

/-- STATUS.BUSY <- b (R101, R104, R105). -/
def Status.withBusy (st : Word) (b : Bool) : Word := withStatusBit st 0 b
/-- STATUS.DONE <- b (R101, R104, R105). -/
def Status.withDone (st : Word) (b : Bool) : Word := withStatusBit st 1 b
/-- STATUS.ERR <- b (R105, R111). -/
def Status.withErr (st : Word) (b : Bool) : Word := withStatusBit st 2 b
/-- STATUS.LOST <- b (R31, R102, R111). -/
def Status.withLost (st : Word) (b : Bool) : Word := withStatusBit st 3 b
/-- STATUS.BBSV <- b (R142). -/
def Status.withBbsv (st : Word) (b : Bool) : Word := withStatusBit st 4 b
/-- STATUS.SKV <- b (R27, R148, R177). -/
def Status.withSkv (st : Word) (b : Bool) : Word := withStatusBit st 5 b
/-- STATUS.ERRCODE <- c (R105, R111). -/
def Status.withErrCode (st : Word) (c : BitVec 4) : Word := withWordField st 8 c
/-- STATUS.LASTOP <- op (R101). -/
def Status.withLastOp (st : Word) (op : Byte) : Word := withWordField st 16 op

/-- The bits of STATUS that no field of R22 occupies: 7:6, 15:12 and 63:24. They read as 0. -/
def statusReservedMask : Word := 0xFFFFFFFFFF00F0C0#64

/-! ## The same fields of a state -/

def State.busy (s : State) : Bool := Status.busy s.status
def State.done (s : State) : Bool := Status.done s.status
def State.err (s : State) : Bool := Status.err s.status
def State.lost (s : State) : Bool := Status.lost s.status
def State.bbsv (s : State) : Bool := Status.bbsv s.status
def State.skv (s : State) : Bool := Status.skv s.status
def State.errCode (s : State) : BitVec 4 := Status.errCode s.status
def State.lastOp (s : State) : Byte := Status.lastOp s.status

/-! ## Error codes (R200) -/

/-- The ten errors a command can raise. Code 0 (NONE) and the reserved codes 11 to 15 are never raised, so they have no constructor. -/
inductive ErrCode where
  | illegal | modulus | notPrime | bbsParam | bbsRange | noSeed | count | width | noKey | permSel
  deriving DecidableEq, Repr

/-- The value an error writes to STATUS.ERRCODE (R200). -/
def ErrCode.code : ErrCode → BitVec 4
  | .illegal => 1#4
  | .modulus => 2#4
  | .notPrime => 3#4
  | .bbsParam => 4#4
  | .bbsRange => 5#4
  | .noSeed => 6#4
  | .count => 7#4
  | .width => 8#4
  | .noKey => 9#4
  | .permSel => 10#4

/-! ## STATUS updates of the life cycle -/

/-- STATUS at acceptance of a command word (R101). -/
def acceptedStatus (st w : Word) : Word :=
  Status.withLastOp (Status.withBusy (Status.withDone st false) true) (w.extractLsb' 0 8)

/-- STATUS at completion, before any error is recorded: BUSY cleared, DONE set (R104). -/
def completedStatus (st : Word) : Word := Status.withDone (Status.withBusy st false) true

/-- STATUS at error completion: ERR set, ERRCODE written, BUSY cleared, DONE set (R105). -/
def erroredStatus (st : Word) (e : ErrCode) : Word :=
  completedStatus (Status.withErrCode (Status.withErr st true) e.code)

end Sys2Proof.Machine
end

