-- ==== Sys2Proof/Machine/Operands.lean ====
section
/-! DEFINITION. The operands of the commands (R84): which register or field each comes from, as unsigned natural numbers (R11, R120),
and the width check (R85). A command word carries no data operand (R81). -/

namespace Sys2Proof.Machine

/-- OPA as an unsigned number: base, seed, block, right half or permutation input (R84). -/
def State.a (s : State) : Nat := s.opa.toNat
/-- OPB as an unsigned number: exponent, first prime or subkey operand (R84). -/
def State.b (s : State) : Nat := s.opb.toNat
/-- OPM as an unsigned number: modulus or second prime (R84). -/
def State.m (s : State) : Nat := s.opm.toNat
/-- KEY as an unsigned number (R27, R84). -/
def State.k (s : State) : Nat := s.key.toNat
/-- SK1, SUBKEYS[15:8] (R28). -/
def State.sk1 (s : State) : Nat := natField s.subkeys.toNat 15 8
/-- SK2, SUBKEYS[7:0] (R28). -/
def State.sk2 (s : State) : Nat := natField s.subkeys.toNat 7 0
/-- BBS_N as an unsigned number (R84). -/
def State.n (s : State) : Nat := s.bbsN.toNat
/-- BBS_X as an unsigned number (R84). -/
def State.x (s : State) : Nat := s.bbsX.toNat

/-- The value fits a field of `width` bits; otherwise the command raises WIDTH (R85). -/
def fits (v width : Nat) : Bool := v < 2 ^ width

/-- Everything a command may read, the operands `LAT` may depend on (R84, R101). -/
def State.operands (s : State) : List Word :=
  [s.opa, s.opb, s.opm, s.key, s.subkeys, s.bbsP, s.bbsQ, s.bbsN, s.bbsX, s.status]

end Sys2Proof.Machine
end

