-- ==== Sys2Proof/Machine/Ops.lean ====
section
/-! DEFINITION. The shared operations: commit sets and completion (R103 to R105), taking an error (R105, R201) and leaving the error
state (R111, R205), acceptance and dropping of command words (R101, R102), the host's bus accesses (R60 to R66), and reset (R230). -/

namespace Sys2Proof.Machine

/-- How a meaning answers: every command has a next state, its success or its error completion. -/
abbrev Outcome := Host.Outcome State Fault Refusal

/-! ## Commit sets and completion -/

/-- One register write of a commit set (R13). No command writes an operand register (R21), so none is named here. -/
inductive RegWrite where
  | result (v : Nat)
  | key (v : Nat)
  | subkeys (v : Nat)
  | bbsP (v : Nat)
  | bbsQ (v : Nat)
  | bbsN (v : Nat)
  | bbsX (v : Nat)
  | bbsv (b : Bool)
  | skv (b : Bool)
  | err (b : Bool)
  | errCode (c : BitVec 4)
  | lost (b : Bool)
  deriving DecidableEq, Repr

/-- `REG[r] <- v` (R12). -/
def RegWrite.apply (s : State) : RegWrite → State
  | .result v => { s with result := toWord v }
  | .key v => { s with key := toWord v }
  | .subkeys v => { s with subkeys := toWord v }
  | .bbsP v => { s with bbsP := toWord v }
  | .bbsQ v => { s with bbsQ := toWord v }
  | .bbsN v => { s with bbsN := toWord v }
  | .bbsX v => { s with bbsX := toWord v }
  | .bbsv b => { s with status := Status.withBbsv s.status b }
  | .skv b => { s with status := Status.withSkv s.status b }
  | .err b => { s with status := Status.withErr s.status b }
  | .errCode c => { s with status := Status.withErrCode s.status c }
  | .lost b => { s with status := Status.withLost s.status b }

/-- All writes of a commit set, in one step (R104). -/
def State.commit (s : State) (ws : List RegWrite) : State := ws.foldl RegWrite.apply s

/-- The engine goes idle, BUSY is cleared and DONE is set: what both completions do (R104, R105). -/
def State.finish (s : State) : State := { s with status := completedStatus s.status, engine := .idle }

/-- Successful completion: the commit set, BUSY, DONE and the engine in one atomic step (R104). -/
def State.complete (s : State) (ws : List RegWrite) : State := (s.commit ws).finish

/-- TAKING AN ERROR: ERR is set, ERRCODE takes the code, and the command completes; no other register changes. It saves nothing else
and jumps nowhere: there is no vector and no handler address (R105, R201, R203). -/
def State.takeError (s : State) (e : ErrCode) : State :=
  { s with status := erroredStatus s.status e, engine := .idle }

/-- LEAVING THE ERROR STATE: what CLEAR commits (R111, R205). -/
def clearCommit : List RegWrite := [.err false, .errCode 0#4, .lost false]

/-- Completion by the value of `exec(w, S)`, a commit set or an error code (R103 to R105). -/
def completeBy (s : State) : Except ErrCode (List RegWrite) → Outcome
  | .ok ws => .next (s.complete ws)
  | .error e => .next (s.takeError e)

/-! ## Acceptance of a command word -/

/-- The exact CLEAR word, the only one accepted while ERR = 1 (R101). -/
def clearWord : Word := 0x0000000000000001#64

/-- The acceptance condition of R101. -/
def State.accepts (s : State) (w : Word) : Bool := !s.busy && (!s.err || w == clearWord)

/-- The latency of the command now accepted, at least 1 (R101, R240). -/
def State.nextLatency (s : State) (w : Word) : Nat :=
  match s.latencies with
  | extra :: _ => extra + 1
  | [] => Config.extraLatency w s.operands + 1

/-- Acceptance: DONE cleared, BUSY set, LASTOP written and the engine started in one step (R101). -/
def State.accept (s : State) (w : Word) : State :=
  { s with
    status := acceptedStatus s.status w
    engine := .busy w (s.nextLatency w)
    latencies := s.latencies.tail }

/-- A dropped write: LOST is set and nothing else changes (R31, R102). -/
def State.lose (s : State) : State := { s with status := Status.withLost s.status true }

/-- A write of CMD: accepted, or dropped (R101, R102). -/
def State.writeCmd (s : State) (w : Word) : State := if s.accepts w then s.accept w else s.lose

/-! ## The register window -/

/-- The defined register of a slot, offset bits 7:3; the other twenty slots are reserved (R20, R61). -/
def Reg.ofSlot : Nat → Option Reg
  | 0 => some .cmd
  | 1 => some .status
  | 2 => some .opa
  | 3 => some .opb
  | 4 => some .opm
  | 5 => some .result
  | 6 => some .key
  | 7 => some .subkeys
  | 8 => some .bbsP
  | 9 => some .bbsQ
  | 10 => some .bbsN
  | 11 => some .bbsX
  | _ => none

/-- The offset of a register (R20). -/
def Reg.offset : Reg → Nat
  | .cmd => 0x00
  | .status => 0x08
  | .opa => 0x10
  | .opb => 0x18
  | .opm => 0x20
  | .result => 0x28
  | .key => 0x30
  | .subkeys => 0x38
  | .bbsP => 0x40
  | .bbsQ => 0x48
  | .bbsN => 0x50
  | .bbsX => 0x58

/-- What a read of a register returns; CMD reads 0 whatever was written (R20, R66). -/
def State.readReg (s : State) : Reg → Word
  | .cmd => 0#64
  | .status => s.status
  | .opa => s.opa
  | .opb => s.opb
  | .opm => s.opm
  | .result => s.result
  | .key => s.key
  | .subkeys => s.subkeys
  | .bbsP => s.bbsP
  | .bbsQ => s.bbsQ
  | .bbsN => s.bbsN
  | .bbsX => s.bbsX

/-- What a read at an offset returns; a reserved slot reads 0 (R61). -/
def State.readAt (s : State) (off : Nat) : Word :=
  match Reg.ofSlot (off / 8) with
  | some r => s.readReg r
  | none => 0#64

/-- A host write of a register: a command, an operand or key write that is dropped while BUSY = 1, or an ignored write of a read-only
register (R27, R31, R65). -/
def State.writeReg (s : State) (v : Word) : Reg → State
  | .cmd => s.writeCmd v
  | .opa => if s.busy then s.lose else { s with opa := v }
  | .opb => if s.busy then s.lose else { s with opb := v }
  | .opm => if s.busy then s.lose else { s with opm := v }
  | .key => if s.busy then s.lose else { s with key := v, status := Status.withSkv s.status false }
  | .status | .result | .subkeys | .bbsP | .bbsQ | .bbsN | .bbsX => s

/-- A host write at an offset; a write of a reserved slot is ignored (R61, R65). -/
def State.writeAt (s : State) (off : Nat) (v : Word) : State :=
  match Reg.ofSlot (off / 8) with
  | some r => s.writeReg v r
  | none => s

/-- Why a bus access cannot be performed, if it cannot: reset is asserted (R232), the offset is outside the window (R60, R61), or the
access is not an aligned 8-byte one (R63). Their order is a DESIGN CHOICE (log entry 17). -/
def State.accessProblem (s : State) (off width : Nat) : Option Outcome :=
  if s.resetAsserted then some (.refused .accessDuringReset)
  else if 0x100 ≤ off then some (.fault .accessOutsideWindow)
  else if width ≠ 8 ∨ off % 8 ≠ 0 then some (.refused .unsupportedAccess)
  else none

/-- The host notes what a read returned. -/
def State.observe (s : State) (off : Nat) (v : Word) : State := { s with observed := s.observed ++ [⟨off, v⟩] }

/-- `BusRead(off, width)`; a read has no side effect on the block (R65). -/
def busRead (off width : Nat) (s : State) : Outcome :=
  match s.accessProblem off width with
  | some o => o
  | none => .next (s.observe off (s.readAt off))

/-- `BusWrite(off, width, v)` (R65). -/
def busWrite (off width : Nat) (v : Word) (s : State) : Outcome :=
  match s.accessProblem off width with
  | some o => o
  | none => .next (s.writeAt off v)

/-- The window as a platform that splits the bus word into byte lanes shows it: the byte at bus address `addr`, if the block claims
that address (R61, R62). -/
def State.windowByte (s : State) (addr : Nat) : Option Byte :=
  if Config.base ≤ addr ∧ addr < Config.base + 0x100 then
    some (laneByte (s.readAt ((addr - Config.base) / 8 * 8)) ((addr - Config.base) % 8))
  else none

/-! ## Reset -/

/-- The block in its reset state: every register 0, the engine idle, a running command abandoned (R230). The tables keep their values
(R231); the host agent and the model's own inputs are not the block's. -/
def State.resetBlock (s : State) : State :=
  { s with
    opa := 0#64
    opb := 0#64
    opm := 0#64
    result := 0#64
    key := 0#64
    subkeys := 0#64
    bbsP := 0#64
    bbsQ := 0#64
    bbsN := 0#64
    bbsX := 0#64
    status := 0#64
    engine := .idle }

/-- The reset input becomes asserted (R230). -/
def State.assertReset (s : State) : State := { s.resetBlock with resetAsserted := true }

/-- The reset input is released: the block is then in the reset state (R230). Releasing it when it is not asserted
does nothing (DESIGN CHOICE, log entry 10). -/
def State.releaseReset (s : State) : State :=
  if s.resetAsserted then { s.resetBlock with resetAsserted := false } else s

end Sys2Proof.Machine
end

