-- ==== Sys2Proof/Machine/Bbs.lean ====
section
/-! DEFINITION. The quadratic-residue CSPRNG commands (42_bbs.md R142, R145, R148). -/

namespace Sys2Proof.Machine

/-- BBS_SEED: seed OPA, primes OPB and OPM (R142). -/
def execBbsSeed (s : State) : Outcome :=
  completeBy s <|
    if s.b % 4 ≠ 3 ∨ s.m % 4 ≠ 3 then .error .bbsParam
    else if s.b = s.m then .error .bbsParam
    else if s.a % s.b = 0 ∨ s.a % s.m = 0 then .error .bbsParam
    else if 2 ^ 64 ≤ s.b * s.m then .error .bbsRange
    else .ok [.bbsP s.b, .bbsQ s.m, .bbsN (s.b * s.m), .bbsX (s.a * s.a % (s.b * s.m)), .bbsv true, .result (s.b * s.m)]

/-- BBS_NEXT: `count` steps; NOSEED is checked before COUNT (R145, R202). -/
def execBbsNext (count : Nat) (s : State) : Outcome :=
  completeBy s <|
    if s.bbsv = false then .error .noSeed
    else if bbsMaxCount < count then .error .count
    else .ok [.bbsX (bbsRun s.n count s.x 0).1, .result (bbsRun s.n count s.x 0).2]

/-- KEYGEN: the next ten bits become KEY, with their schedule in SUBKEYS (R147, R148). -/
def execKeygen (s : State) : Outcome :=
  completeBy s <|
    if s.bbsv = false then .error .noSeed
    else
      .ok [.bbsX (bbsRun s.n keyW s.x 0).1, .key (bbsRun s.n keyW s.x 0).2,
        .subkeys (packSubkeys (schedule s.tables (bbsRun s.n keyW s.x 0).2)), .skv true,
        .result (bbsRun s.n keyW s.x 0).2]

end Sys2Proof.Machine
end

