-- ==== Sys2Proof/Machine/Control.lean ====
section
/-! DEFINITION. The control commands NOP and CLEAR (40_control.md R110, R111). -/

namespace Sys2Proof.Machine

/-- NOP commits nothing; only the life-cycle fields change (R110). -/
def execNop (s : State) : Outcome := completeBy s (.ok [])

/-- CLEAR clears ERR, ERRCODE and LOST and nothing else; it cannot fail (R111, R205). -/
def execClear (s : State) : Outcome := completeBy s (.ok clearCommit)

end Sys2Proof.Machine
end

