-- ==== Sys2Proof/Machine/Feistel.lean ====
section
/-! DEFINITION. The Feistel cipher commands and the permutation unit mu (43_feistel.md R169 to R183). -/

namespace Sys2Proof.Machine

/-- KEYSCHED: the schedule of KEY into SUBKEYS, SKV and RESULT (R177). -/
def execKeysched (s : State) : Outcome :=
  completeBy s <|
    if fits s.k keyW then
      .ok [.subkeys (packSubkeys (schedule s.tables s.k)), .skv true, .result (packSubkeys (schedule s.tables s.k))]
    else .error .width

/-- ENC: one block under SUBKEYS; NOKEY is checked before WIDTH (R180, R202). -/
def execEnc (s : State) : Outcome :=
  completeBy s <|
    if s.skv = false then .error .noKey
    else if fits s.a blockW then .ok [.result (encBlock s.tables s.a s.sk1 s.sk2)]
    else .error .width

/-- DEC: the inverse of ENC under the same SUBKEYS (R183). -/
def execDec (s : State) : Outcome :=
  completeBy s <|
    if s.skv = false then .error .noKey
    else if fits s.a blockW then .ok [.result (decBlock s.tables s.a s.sk1 s.sk2)]
    else .error .width

/-- FROUND: one Feistel round of OPA under the subkey OPB (R174). -/
def execFround (s : State) : Outcome :=
  completeBy s <|
    if fits s.a blockW && fits s.b subkeyW then .ok [.result (feistelRound s.tables s.a s.b)]
    else .error .width

/-- FFUNC: the round function of OPA under the subkey OPB (R171). -/
def execFfunc (s : State) : Outcome :=
  completeBy s <|
    if fits s.a halfW && fits s.b subkeyW then .ok [.result (roundFunction s.tables s.a s.b)]
    else .error .width

/-- PERM: the selected table applied to OPA; PERMSEL is checked before WIDTH (R169, R202). -/
def execPerm (sel : Nat) (s : State) : Outcome :=
  completeBy s <|
    match MuTable.ofSelector sel with
    | none => .error .permSel
    | some t =>
      if fits s.a t.inputWidth then .ok [.result (perm (t.entries s.tables) t.inputWidth s.a)]
      else .error .width

end Sys2Proof.Machine
end

