-- ==== Sys2Proof/Machine/Modexp.lean ====
section
/-! DEFINITION. Modular exponentiation and the quadratic-residue detector (41_modexp.md R124, R128). -/

namespace Sys2Proof.Machine

/-- MODEXP: RESULT <- OPA ^ OPB mod OPM, or MODULUS when OPM = 0 (R124). -/
def execModexp (s : State) : Outcome :=
  completeBy s <|
    if s.m = 0 then .error .modulus
    else .ok [.result (modPow s.a s.b s.m)]

/-- LEGENDRE: Euler's criterion on OPA and OPM, with -1 written as all ones (R128). -/
def execLegendre (s : State) : Outcome :=
  completeBy s <|
    if s.m < 3 ∨ s.m % 2 = 0 then .error .modulus
    else if eulerValue s.a s.m = 0 then .ok [.result 0]
    else if eulerValue s.a s.m = 1 then .ok [.result 1]
    else if eulerValue s.a s.m = s.m - 1 then .ok [.result 0xFFFFFFFFFFFFFFFF]
    else .error .notPrime

end Sys2Proof.Machine
end

