-- ==== Sys2Proof/Machine/Dispatch.lean ====
section
/-! DEFINITION. `exec i s` is the completion of command `i` in state `s`: the value of the spec's `exec(w, S)` (R103) applied by
successful or error completion (R104, R105; log entry 13). One arm per command. -/

namespace Sys2Proof.Machine

def exec (i : Instr) (s : State) : Host.Outcome State Fault Refusal :=
  match i with
  | .nop => Sys2Proof.Machine.execNop s
  | .clear => Sys2Proof.Machine.execClear s
  | .modexp => Sys2Proof.Machine.execModexp s
  | .legendre => Sys2Proof.Machine.execLegendre s
  | .bbsSeed => Sys2Proof.Machine.execBbsSeed s
  | .bbsNext count => Sys2Proof.Machine.execBbsNext count s
  | .keygen => Sys2Proof.Machine.execKeygen s
  | .keysched => Sys2Proof.Machine.execKeysched s
  | .enc => Sys2Proof.Machine.execEnc s
  | .dec => Sys2Proof.Machine.execDec s
  | .fround => Sys2Proof.Machine.execFround s
  | .ffunc => Sys2Proof.Machine.execFfunc s
  | .perm sel => Sys2Proof.Machine.execPerm sel s

end Sys2Proof.Machine
end

