-- ==== Sys2Proof/Machine/Agents.lean ====
section
/-! DEFINITION. One step of each agent: the engine's step relation (R106), the host's next access (R15, R67, R89), and the choice of
who acts. Step.lean only calls what stands here. -/

namespace Sys2Proof.Machine

/-- Completion of the latched command word: its command's meaning, or error ILLEGAL when it is no legal word (R83, R103, R202). -/
def completeWord (w : Word) (s : State) : Outcome :=
  match decodeWord w with
  | .ok i => exec i s
  | .error _ => completeBy s (.error .illegal)

/-- The engine's step (R106): nothing when idle, one unit of latency, or completion (log entry 18). While reset is asserted
the engine is held idle (R230). -/
def engineStep (s : State) : Outcome :=
  if s.resetAsserted then .next s
  else
    match s.engine with
    | .idle => .next s
    | .busy w lat => if 1 < lat then .next { s with engine := .busy w (lat - 1) } else completeWord w s

/-- The host has performed its first pending action. -/
def State.advance (s : State) : State := { s with program := s.program.tail }

/-- One read of a `wait`: it goes on unless the STATUS it read had BUSY = 0 (R89, log entry 16). -/
def waitPoll (s : State) : Outcome :=
  match s.accessProblem Reg.status.offset 8 with
  | some o => o
  | none =>
    if s.busy then .next (s.observe Reg.status.offset s.status)
    else .next (s.advance.observe Reg.status.offset s.status)

/-- The host's step: its next access, in program order (R15, R67). -/
def hostStep (s : State) : Outcome :=
  match s.program with
  | [] => .next s
  | .read off width :: _ => busRead off width s.advance
  | .write off width v :: _ => busWrite off width v s.advance
  | .wait :: _ => waitPoll s

/-- The turns to come: the schedule, or, once it is used up, finitely many turns of anyone and then one of the engine. Nothing
constrains the order (R106), and the engine is never kept waiting for ever (R240, log entry 2). -/
def State.coming (s : State) : List Turn :=
  match s.schedule with
  | t :: ts => t :: ts
  | [] => Config.freeTurns s.turns ++ [.engine]

/-- Who acts now. -/
def State.nextTurn (s : State) : Turn := s.coming.headD .engine

/-- The turn is used up. -/
def State.turnTaken (s : State) : State := { s with schedule := s.coming.tail, turns := s.turns + 1 }

/-- One step of the agent whose turn it is. -/
def takeTurn (t : Turn) (s : State) : Outcome :=
  match t with
  | .host => hostStep s
  | .engine => engineStep s
  | .assertReset => .next s.assertReset
  | .releaseReset => .next s.releaseReset

/-- The state in which the engine completes word `w` at its very next step: `w` accepted as R101 says, with latency 1, reset not
asserted, and the next turn the engine's. -/
def State.startWord (s : State) (w : Word) : State :=
  { s with
    status := acceptedStatus s.status w
    engine := .busy w 1
    resetAsserted := false
    schedule := .engine :: s.schedule }

end Sys2Proof.Machine
end

