-- ==== Sys2Proof/Machine/Step.lean ====
section
/-! DEFINITION. One step of the whole machine, and the state that runs a given command word next. -/

namespace Sys2Proof.Machine

/-- One step: the agent whose turn it is acts once (R15, R106). -/
def step (s : State) : Host.Outcome State Fault Refusal := takeTurn s.nextTurn s.turnTaken

/-- The state whose next step runs the command word `w`: the word is latched in the engine, as its acceptance leaves it (log entry 4). -/
def State.withFetchWord (s : State) (nbits w : Nat) : State := s.startWord (BitVec.ofNat 64 (w % 2 ^ nbits))

end Sys2Proof.Machine
end

