-- ==== Sys2Proof/Machine/HostProgram.lean ====
section
/-! DEFINITION. The statements of host programs (30_encoding.md R88, R89) and the bus accesses they expand to. -/

namespace Sys2Proof.Machine

/-- The registers `wr` may name (R88). -/
inductive WritableReg where
  | opa | opb | opm | key
  deriving DecidableEq, Repr

/-- The window register of a `wr` operand. -/
def WritableReg.reg : WritableReg → Reg
  | .opa => .opa
  | .opb => .opb
  | .opm => .opm
  | .key => .key

/-- A statement of a host program (R88) or a pseudo-statement (R89). -/
inductive Stmt where
  /-- `wr REG, imm`. -/
  | wr (r : WritableReg) (imm : Word)
  /-- `cmd MNEMONIC`, `cmd BBS_NEXT n`, `cmd PERM t`. -/
  | cmd (i : Instr)
  /-- `rd REG`. -/
  | rd (r : Reg)
  /-- `wait`. -/
  | wait
  /-- `run MNEMONIC [arg]`. -/
  | run (i : Instr)
  /-- `expect_ok`: read STATUS, with the claim that ERR = 0 and LOST = 0. -/
  | expectOk
  /-- `setkey k`. -/
  | setkey (k : Word)
  deriving DecidableEq, Repr

/-- The bus accesses of a statement, each 8 bytes wide (R88, R89). -/
def Stmt.expand : Stmt → List HostOp
  | .wr r imm => [.write r.reg.offset 8 imm]
  | .cmd i => [.write Reg.cmd.offset 8 (encode i)]
  | .rd r => [.read r.offset 8]
  | .wait => [.wait]
  | .run i => [.write Reg.cmd.offset 8 (encode i), .wait]
  | .expectOk => [.read Reg.status.offset 8]
  | .setkey k => [.write Reg.key.offset 8 k, .write Reg.cmd.offset 8 (encode .keysched), .wait]

/-- The bus accesses of a host program (R32: the program is the host's sequence of accesses). -/
def expandProgram (p : List Stmt) : List HostOp := p.flatMap Stmt.expand

/-- The claim of `expect_ok` about the STATUS it read: ERR = 0 and LOST = 0 (R89). -/
def expectOkHolds (st : Word) : Bool := !Status.err st && !Status.lost st

/-- `PERM t` with a table name (R88, R169). -/
def permOf (t : MuTable) : Instr := .perm t.selector

end Sys2Proof.Machine
end

