-- ==== Sys2Proof/Safety.lean ====
section
/-! DEFINITION. What claims are stated in: how a host run ends (R108), the STATUS words of the life cycle written from the bit layout of
R22, the invariants of R23 and the machine invariant built on them, and the reachable states. -/

namespace Sys2Proof.Machine

/-! ## The end of a host run (R108) -/

/-- The host has performed its last access and no command is running (R108). -/
def State.RunEnded (s : State) : Prop := s.program = [] ∧ s.busy = false

/-- The run ended well: also ERR = 0 and LOST = 0 (R108). -/
def State.EndsWell (s : State) : Prop := s.RunEnded ∧ s.err = false ∧ s.lost = false

/-- A faulted run: an error is still recorded, or a write was dropped (R108, R206). This is how the model reads "fault" in R206; it is
no stop of the machine (log entry 7). -/
def State.Faulted (s : State) : Prop := s.RunEnded ∧ (s.err = true ∨ s.lost = true)

/-! ## STATUS words, written from the bit layout of R22

Each is a mask over the 64-bit word, independent of the field updates the machine uses. -/

/-- R101: DONE (bit 1) cleared, BUSY (bit 0) set, LASTOP (bits 23:16) the OP field of the word, every other bit kept. -/
def acceptStatus (st w : Word) : Word :=
  (st &&& 0xFFFFFFFFFF00FFFC#64) ||| 0x1#64 ||| ((w &&& 0xFF#64) <<< 16)

/-- R104: BUSY (bit 0) cleared, DONE (bit 1) set, every other bit kept. -/
def okStatus (st : Word) : Word := (st &&& 0xFFFFFFFFFFFFFFFC#64) ||| 0x2#64

/-- R105: BUSY cleared, DONE and ERR (bit 2) set, ERRCODE (bits 11:8) the code, every other bit kept. -/
def errStatus (st : Word) (code : BitVec 4) : Word :=
  (st &&& 0xFFFFFFFFFFFFF0F8#64) ||| 0x6#64 ||| (code.setWidth 64 <<< 8)

/-- R31, R102: LOST (bit 3) set, every other bit kept. -/
def lostStatus (st : Word) : Word := st ||| 0x8#64

/-- The state after a failed command: only STATUS and the engine differ (R105, R201). -/
def State.failed (s : State) (code : BitVec 4) : State :=
  { s with status := errStatus s.status code, engine := .idle }

/-! ## Invariants -/

/-- The five STATUS invariants of R23, clause by clause. -/
structure StatusInvariants (s : State) : Prop where
  /-- (a) BUSY = 1 implies DONE = 0. -/
  busyNotDone : s.busy = true → s.done = false
  /-- (b) ERR = 1 implies ERRCODE ≠ 0, and ERR = 0 implies ERRCODE = 0. -/
  errHasCode : (s.err = true → s.errCode ≠ 0#4) ∧ (s.err = false → s.errCode = 0#4)
  /-- (c) ERR = 1 and BUSY = 1 hold together only while a CLEAR command runs. -/
  errBusyIsClear : s.err = true → s.busy = true → ∃ lat, s.engine = .busy clearWord lat
  /-- (d) SKV = 1 implies SUBKEYS = schedule(KEY[9:0]) and KEY < 2^10. -/
  subkeysOfKey : s.skv = true →
    s.key.toNat < 2 ^ 10 ∧ s.subkeys = toWord (packSubkeys (schedule s.tables (natField s.key.toNat 9 0)))
  /-- (e) BBSV = 1 implies the CSPRNG state is a seeded one. -/
  bbsSeeded : s.bbsv = true →
    s.bbsN.toNat = s.bbsP.toNat * s.bbsQ.toNat ∧ s.bbsX.toNat < s.bbsN.toNat ∧
      s.bbsP.toNat % 4 = 3 ∧ s.bbsQ.toNat % 4 = 3 ∧ s.bbsP ≠ s.bbsQ

/-- The machine invariant: R23 with what it rests on. -/
structure Inv (s : State) : Prop extends StatusInvariants s where
  /-- The table record is a legal configuration (R161 to R163). -/
  tablesLegal : s.tables.legal = true
  /-- The reserved bits of STATUS are 0 (R22). -/
  statusReserved : s.status &&& statusReservedMask = 0#64
  /-- ERRCODE is 0 or a code some error has: 11 to 15 are never produced (R200). -/
  errCodeKnown : s.errCode.toNat ≤ 10
  /-- SUBKEYS[63:16] = 0 (R28). -/
  subkeysNarrow : s.subkeys.toNat < 2 ^ 16
  /-- BUSY shows whether the engine runs a command (R106). -/
  busyIsEngine : s.busy = true ↔ s.engine ≠ .idle
  /-- A running command has at least one engine step left, and LASTOP holds its OP field (R22, R101). -/
  engineRuns : ∀ w lat, s.engine = .busy w lat → 1 ≤ lat ∧ s.lastOp = cmdOp w
  /-- While reset is asserted the block is in the reset state (R230). -/
  resetHeld : s.resetAsserted = true → s.resetBlock = s

/-- `k` steps of the machine, stopping at the first fault or refusal: `Host.Core.run` of `Sys2Proof.core`, on the type `State` itself. -/
def steps : Nat → State → Outcome
  | 0, s => .next s
  | k + 1, s =>
    match step s with
    | .next s' => steps k s'
    | .fault r => .fault r
    | .refused r => .refused r

/-! ## Infinite runs (R240) -/

/-- An infinite run of the machine: no step of it stops. -/
def IsRun (r : Nat → State) : Prop := ∀ n, step (r n) = .next (r (n + 1))

/-- The weak fairness R240 tells a model to assume: a command that runs from some point on without end is given an engine step. -/
def FairToEngine (r : Nat → State) : Prop :=
  ∀ n, (∀ m, n ≤ m → (r m).engine ≠ .idle) → ∃ m, n ≤ m ∧ (r m).nextTurn = .engine

/-- The host goes on with its program: while accesses are pending it is given a turn. R89 and R240 speak of a host that polls; that it
does is a premise about the host, no assumption about the block (log entry 23). -/
def HostGoesOn (r : Nat → State) : Prop :=
  ∀ n, (∀ m, n ≤ m → (r m).program ≠ []) → ∃ m, n ≤ m ∧ (r m).nextTurn = .host

/-- The machine after reset with a host program, a table record and any choice of interleaving and latencies loaded (log entry 4). -/
def State.loaded (ft : FeistelTables) (p : List HostOp) (sch : List Turn) (lats : List Nat) : State :=
  { State.reset with tables := ft, program := p, schedule := sch, latencies := lats }

end Sys2Proof.Machine
end

