-- ==== Sys2Proof/Certificates/Slice0/Obligations.lean ====
section
/-! DEFINITION. The statements for the provers. `s.turnTaken` in a statement is `s` with the turn just used removed from the model's own
schedule and its turn counter advanced; no register of the block is touched by that. -/

open Sys2Proof Sys2Proof.Machine

/-! ## Encoding -/

/-- R80, R82, R88: decoding the word of any well-formed command gives the command back, with every argument the encoding admits. -/
def Obligations.DecodeOfEncode : Prop :=
  ∀ i : Instr, i.WellFormed → decodeWord (encode i) = .ok i

/-- R82, R87: a word that decodes is the word of the command it decodes to, so each command has one word. -/
def Obligations.EncodeOfDecode : Prop :=
  ∀ (w : Word) (i : Instr), decodeWord w = .ok i → i.WellFormed ∧ encode i = w

/-- R87, R83, R86: every word selects exactly one row of the opcode map and decodes by it, or selects none and is illegal; a word with
RSVD ≠ 0 is illegal; of the 2^16 words with RSVD = 0 exactly 523 are legal. -/
def Obligations.OpcodeMapTotalAndUnambiguous : Prop :=
  (∀ w : Word,
    ((∃ r, opcodeTable.filter (fun r => r.selects w) = [r] ∧ decodeWord w = .ok (r.build (cmdArg w))) ∨
      (opcodeTable.filter (fun r => r.selects w) = [] ∧ ∃ e, decodeWord w = .error e))) ∧
  (∀ w : Word, cmdRsvd w ≠ 0#48 → ∃ e, decodeWord w = .error e) ∧
  ((Finset.range (2 ^ 16)).filter (fun n => (decodeWord (BitVec.ofNat 64 n)).toOption.isSome = true)).card = 523

/-- R82: words written out from the opcode map decode to the commands they stand for, in every family. -/
def Obligations.SpecWordsDecode : Prop :=
  decodeWord 0x0000000000000000#64 = .ok .nop ∧ decodeWord 0x0000000000000001#64 = .ok .clear ∧
  decodeWord 0x0000000000000010#64 = .ok .modexp ∧ decodeWord 0x0000000000000011#64 = .ok .legendre ∧
  decodeWord 0x0000000000000020#64 = .ok .bbsSeed ∧ decodeWord 0x0000000000004121#64 = .ok (.bbsNext 65) ∧
  decodeWord 0x0000000000000022#64 = .ok .keygen ∧ decodeWord 0x0000000000000030#64 = .ok .keysched ∧
  decodeWord 0x0000000000000031#64 = .ok .enc ∧ decodeWord 0x0000000000000032#64 = .ok .dec ∧
  decodeWord 0x0000000000000033#64 = .ok .fround ∧ decodeWord 0x0000000000000034#64 = .ok .ffunc ∧
  decodeWord 0x0000000000000638#64 = .ok (.perm 6) ∧
  (∀ i, decodeWord 0x0000000000000100#64 ≠ .ok i) ∧ (∀ i, decodeWord 0x0000000000010010#64 ≠ .ok i)

/-! ## The engine's step relation and the life cycle -/

/-- R103, R106: when it is the engine's turn and the running command's latency has elapsed, the step is `exec` of the decoded command. -/
def Obligations.StepRunsDecodedCommand : Prop :=
  ∀ (s : State) (w : Word) (i : Instr),
    s.nextTurn = .engine → s.resetAsserted = false → s.engine = .busy w 1 → decodeWord w = .ok i →
      step s = exec i s.turnTaken

/-- The model's own convention (log entry 4): the state `withFetchWord` builds runs the table's word at its very next step, on the
registers of `s` with STATUS as acceptance leaves it (R101). -/
def Obligations.FetchedWordRunsNext : Prop :=
  ∀ (s : State) (w : Nat) (i : Instr), decodeTableWord 64 w = some i →
    ∃ u : State, step (s.withFetchWord 64 w) = exec i u ∧
      u = { s with
            status := acceptStatus s.status (BitVec.ofNat 64 (w % 2 ^ 64))
            engine := .busy (BitVec.ofNat 64 (w % 2 ^ 64)) 1
            resetAsserted := false
            turns := s.turns + 1 }

/-- R106: an engine step of a command with latency left only counts it down, and an idle engine takes no step: nothing visible changes. -/
def Obligations.EngineStepCountsLatency : Prop :=
  (∀ (s : State) (w : Word) (lat : Nat),
    s.nextTurn = .engine → s.resetAsserted = false → s.engine = .busy w lat → 1 < lat →
      step s = .next { s.turnTaken with engine := .busy w (lat - 1) }) ∧
  (∀ s : State, s.nextTurn = .engine → s.engine = .idle → step s = .next s.turnTaken)

/-- R101: a CMD write while BUSY = 0 and (ERR = 0 or the word is the exact CLEAR word) is accepted, whether or not the word is legal:
DONE <- 0, BUSY <- 1, LASTOP <- the OP field, and the engine is busy with the word and a latency of at least 1. -/
def Obligations.CommandWordAccepted : Prop :=
  ∀ (s : State) (w : Word) (rest : List HostOp),
    s.nextTurn = .host → s.resetAsserted = false → s.program = .write 0x00 8 w :: rest →
    s.busy = false → (s.err = false ∨ w = 0x0000000000000001#64) →
      ∃ lat : Nat, 1 ≤ lat ∧
        step s = .next { s.turnTaken with
          program := rest
          status := acceptStatus s.status w
          engine := .busy w lat
          latencies := s.latencies.tail }

/-- R102: a CMD write that is not accepted changes nothing but LOST. -/
def Obligations.CommandWordDropped : Prop :=
  ∀ (s : State) (w : Word) (rest : List HostOp),
    s.nextTurn = .host → s.resetAsserted = false → s.program = .write 0x00 8 w :: rest →
    (s.busy = true ∨ (s.err = true ∧ w ≠ 0x0000000000000001#64)) →
      step s = .next { s.turnTaken with program := rest, status := lostStatus s.status }

/-- R83, R105: an accepted illegal word ends at completion in error ILLEGAL (code 1) and changes nothing else. -/
def Obligations.IllegalWordEndsInIllegal : Prop :=
  ∀ (s : State) (w : Word) (e : DecodeError),
    s.nextTurn = .engine → s.resetAsserted = false → s.engine = .busy w 1 → decodeWord w = .error e →
      step s = .next (s.turnTaken.failed 1#4)

/-- R104, R105, R21: every command completes, successfully or with an error: BUSY = 0, DONE = 1, the engine is idle, LASTOP is kept, and
no command writes an operand register, the tables or anything of the host's. -/
def Obligations.EveryCommandCompletes : Prop :=
  ∀ (i : Instr) (s : State), ∃ t : State, exec i s = .next t ∧
    t.busy = false ∧ t.done = true ∧ t.engine = .idle ∧ t.lastOp = s.lastOp ∧
    t.opa = s.opa ∧ t.opb = s.opb ∧ t.opm = s.opm ∧ t.tables = s.tables ∧ t.resetAsserted = s.resetAsserted ∧
    t.program = s.program ∧ t.observed = s.observed ∧ t.schedule = s.schedule ∧ t.latencies = s.latencies ∧ t.turns = s.turns

/-- R201: errors are precise. A command that ends with ERR newly set has written nothing but STATUS.ERR, ERRCODE, BUSY and DONE, and its
code is one of 2 to 10. -/
def Obligations.ErrorsArePrecise : Prop :=
  ∀ (i : Instr) (s t : State), exec i s = .next t → s.err = false → t.err = true →
    ∃ code : BitVec 4, 2 ≤ code.toNat ∧ code.toNat ≤ 10 ∧ t = s.failed code

/-- R84, R24, R25, R27, R28: which command may write which register. -/
def Obligations.OnlyNamedCommandsWrite : Prop :=
  ∀ (i : Instr) (s t : State), exec i s = .next t →
    (t.key ≠ s.key → i = .keygen) ∧
    (t.subkeys ≠ s.subkeys → i = .keygen ∨ i = .keysched) ∧
    (t.skv ≠ s.skv → i = .keygen ∨ i = .keysched) ∧
    (t.bbsP ≠ s.bbsP → i = .bbsSeed) ∧ (t.bbsQ ≠ s.bbsQ → i = .bbsSeed) ∧ (t.bbsN ≠ s.bbsN → i = .bbsSeed) ∧
    (t.bbsv ≠ s.bbsv → i = .bbsSeed) ∧
    (t.bbsX ≠ s.bbsX → i = .bbsSeed ∨ i = .keygen ∨ ∃ c, i = .bbsNext c) ∧
    (t.result ≠ s.result → i ≠ .nop ∧ i ≠ .clear) ∧
    (t.lost ≠ s.lost → i = .clear) ∧
    (s.err = true → t.err = false → i = .clear)

/-- R104, R239: until a running command completes, no step of either agent changes any register of the window except STATUS.LOST. -/
def Obligations.NothingVisibleBeforeCompletion : Prop :=
  ∀ (s t : State), s.busy = true → s.resetAsserted = false → step s = .next t → t.engine ≠ .idle →
    (∀ r : Reg, r ≠ .status → t.readReg r = s.readReg r) ∧ (t.status = s.status ∨ t.status = lostStatus s.status)

/-- R205: the error state is left only by the completion of a CLEAR or by reset. -/
def Obligations.ErrorStateLeftOnlyByClearOrReset : Prop :=
  ∀ (s t : State), Inv s → step s = .next t → s.err = true → t.err = false →
    (s.nextTurn = .engine ∧ s.engine = .busy 0x0000000000000001#64 1) ∨ s.nextTurn = .assertReset

/-- R106, R240: a running legal command whose turns are the engine's completes after exactly its latency in engine steps, by `exec` of
its command on the registers it was running with. -/
def Obligations.CommandCompletesAfterLatency : Prop :=
  ∀ (s : State) (w : Word) (i : Instr) (lat : Nat) (rest : List Turn),
    1 ≤ lat → s.resetAsserted = false → s.engine = .busy w lat → decodeWord w = .ok i →
    s.schedule = List.replicate lat .engine ++ rest →
      ∃ t : State, steps lat s = .next t ∧ t.engine = .idle ∧ t.done = true ∧
        exec i { s with engine := .busy w 1, schedule := rest, turns := s.turns + lat } = .next t

/-- R240: every infinite run of the machine is weakly fair to the engine: a command that runs on is given an engine step. -/
def Obligations.EveryRunIsFairToEngine : Prop := ∀ r : Nat → State, IsRun r → FairToEngine r

/-- R240: in every infinite run a running command ends after finitely many steps: it is the engine's command until a step that completes
it (DONE = 1) or in which reset is asserted. -/
def Obligations.RunningCommandEndsInEveryRun : Prop :=
  ∀ (r : Nat → State) (n : Nat) (w : Word) (lat : Nat), IsRun r → Inv (r n) → (r n).engine = .busy w lat →
    ∃ m, n ≤ m ∧ (∀ j, n ≤ j → j ≤ m → ∃ l, (r j).engine = .busy w l) ∧ (r (m + 1)).engine = .idle ∧
      (((r m).nextTurn = .engine ∧ (r (m + 1)).done = true) ∨ (r m).nextTurn = .assertReset)

/-- R89, R240: in every infinite run a wait ends after finitely many reads: from some step on, the next read of STATUS ends it. So where
the host goes on polling (a premise about the host, log entry 23), it ends. -/
def Obligations.WaitEndsInEveryRun : Prop :=
  ∀ (r : Nat → State) (n : Nat) (rest : List HostOp), IsRun r → Inv (r n) → (r n).program = .wait :: rest →
    (∃ m, n ≤ m ∧ ∀ k, m ≤ k → (∀ j, n ≤ j → j ≤ k → (r j).program = .wait :: rest) → (r k).nextTurn = .host →
      (r (k + 1)).program = rest) ∧
    (HostGoesOn r → ∃ m, n ≤ m ∧ (∀ j, n ≤ j → j ≤ m → (r j).program = .wait :: rest) ∧ (r (m + 1)).program = rest)

/-! ## The host's accesses -/

/-- R20, R61, R65, R66: a read of an aligned offset of the window returns the register of its slot, 0 for CMD and for a reserved slot,
and changes nothing but what the host has seen. -/
def Obligations.ReadReturnsTheSlot : Prop :=
  ∀ (s : State) (off : Nat) (rest : List HostOp),
    s.nextTurn = .host → s.resetAsserted = false → s.program = .read off 8 :: rest → off < 0x100 → off % 8 = 0 →
      ∃ v : Word, step s = .next { s.turnTaken with program := rest, observed := s.observed ++ [⟨off, v⟩] } ∧
        (off = 0x00 → v = 0#64) ∧ (off = 0x08 → v = s.status) ∧
        (off = 0x10 → v = s.opa) ∧ (off = 0x18 → v = s.opb) ∧ (off = 0x20 → v = s.opm) ∧
        (off = 0x28 → v = s.result) ∧ (off = 0x30 → v = s.key) ∧ (off = 0x38 → v = s.subkeys) ∧
        (off = 0x40 → v = s.bbsP) ∧ (off = 0x48 → v = s.bbsQ) ∧ (off = 0x50 → v = s.bbsN) ∧ (off = 0x58 → v = s.bbsX) ∧
        (0x60 ≤ off → v = 0#64)

/-- R21, R31: while BUSY = 0, also while ERR = 1, a write of OPA, OPB or OPM stores all 64 bits and changes nothing else. -/
def Obligations.OperandWriteStored : Prop :=
  ∀ (s : State) (v : Word) (rest : List HostOp),
    s.nextTurn = .host → s.resetAsserted = false → s.busy = false →
      (s.program = .write 0x10 8 v :: rest → step s = .next { s.turnTaken with program := rest, opa := v }) ∧
      (s.program = .write 0x18 8 v :: rest → step s = .next { s.turnTaken with program := rest, opb := v }) ∧
      (s.program = .write 0x20 8 v :: rest → step s = .next { s.turnTaken with program := rest, opm := v })

/-- R27: an accepted write of KEY stores all 64 bits and clears SKV (STATUS bit 5) in the same step, whatever value it writes. -/
def Obligations.KeyWriteClearsSkv : Prop :=
  ∀ (s : State) (v : Word) (rest : List HostOp),
    s.nextTurn = .host → s.resetAsserted = false → s.busy = false → s.program = .write 0x30 8 v :: rest →
      step s = .next { s.turnTaken with program := rest, key := v, status := s.status &&& 0xFFFFFFFFFFFFFFDF#64 }

/-- R31: a write of OPA, OPB, OPM or KEY while BUSY = 1 is dropped: the register keeps its value and LOST is set, and nothing else
changes. Such a write at any other time, also while ERR = 1, is accepted: the register takes the value and LOST is not touched. -/
def Obligations.OperandWriteDroppedExactlyWhileBusy : Prop :=
  ∀ (s : State) (r : Reg) (v : Word) (rest : List HostOp),
    s.nextTurn = .host → s.resetAsserted = false → s.program = .write r.offset 8 v :: rest →
    (r = .opa ∨ r = .opb ∨ r = .opm ∨ r = .key) →
      (s.busy = true → step s = .next { s.turnTaken with program := rest, status := lostStatus s.status }) ∧
      (s.busy = false → ∃ t : State, step s = .next t ∧ t.readReg r = v ∧ t.lost = s.lost ∧ t.engine = s.engine)

/-- R22, R61, R65: writes of STATUS, RESULT, SUBKEYS, the BBS registers and reserved slots are ignored and set nothing. -/
def Obligations.ReadOnlyWriteIgnored : Prop :=
  ∀ (s : State) (off : Nat) (v : Word) (rest : List HostOp),
    s.nextTurn = .host → s.resetAsserted = false → s.program = .write off 8 v :: rest → off < 0x100 → off % 8 = 0 →
    (off = 0x08 ∨ off = 0x28 ∨ 0x38 ≤ off) →
      step s = .next { s.turnTaken with program := rest }

/-- R63, R232: an access that is not 8 bytes wide and aligned is refused, and so is any access while reset is asserted, a read, a write or
the STATUS read of a wait. That one outside the window faults is the model's reading of R60 and R61 (log entry 8), and so is the order of
the three checks (log entry 17). -/
def Obligations.UnsupportedAccessStops : Prop :=
  (∀ s : State, s.nextTurn = .host → s.program ≠ [] → s.resetAsserted = true → step s = .refused .accessDuringReset) ∧
  (∀ (s : State) (off width : Nat) (v : Word) (rest : List HostOp),
    s.nextTurn = .host → (s.program = .read off width :: rest ∨ s.program = .write off width v :: rest) → s.resetAsserted = false →
      (0x100 ≤ off → step s = .fault .accessOutsideWindow) ∧
      (off < 0x100 → (width ≠ 8 ∨ off % 8 ≠ 0) → step s = .refused .unsupportedAccess))

/-- R60, R63, R232: the machine stops only on a bus access of the host that the specification does not define; every other step, and so
every step of the engine, has a next state. -/
def Obligations.StopsOnlyOnUndefinedAccess : Prop :=
  ∀ s : State, (∃ t : State, step s = .next t) ∨
    (s.nextTurn = .host ∧
      ((s.resetAsserted = true ∧ s.program ≠ []) ∨
        ∃ (off width : Nat) (v : Word) (rest : List HostOp),
          (s.program = .read off width :: rest ∨ s.program = .write off width v :: rest) ∧
          (0x100 ≤ off ∨ width ≠ 8 ∨ off % 8 ≠ 0)))

/-- R62: on byte lanes, bits `8j+7 : 8j` of the register at `off` stand at bus address `BASE + off + j`; R61: BASE is a multiple of
0x100 and the block claims no other address. -/
def Obligations.ByteLanesAreLittleEndian : Prop :=
  Config.base % 0x100 = 0 ∧
  (∀ (s : State) (off j : Nat), off < 0x100 → off % 8 = 0 → j < 8 →
    s.windowByte (Config.base + off + j) = some ((s.readAt off).extractLsb' (8 * j) 8)) ∧
  (∀ (s : State) (addr : Nat), (addr < Config.base ∨ Config.base + 0x100 ≤ addr) → s.windowByte addr = none)

/-- R89: `wait` reads STATUS; it goes on while the value read has BUSY = 1 and ends with the first that has BUSY = 0. -/
def Obligations.WaitPollsStatus : Prop :=
  ∀ (s : State) (rest : List HostOp),
    s.nextTurn = .host → s.resetAsserted = false → s.program = .wait :: rest →
      (s.status.getLsbD 0 = true →
        step s = .next { s.turnTaken with observed := s.observed ++ [⟨0x08, s.status⟩] }) ∧
      (s.status.getLsbD 0 = false →
        step s = .next { s.turnTaken with program := rest, observed := s.observed ++ [⟨0x08, s.status⟩] })

/-- R89 with R88, R101, R104 to R106: the statement `run i` on an idle block without error writes the command word, runs the command to
completion and ends its `wait` with the first STATUS read that has BUSY = 0: `u` is the completion of the command on the registers at
acceptance, and the host has seen its STATUS. The turns and the latency are the model's own inputs (log entries 2, 3 and 16): here one
turn for the write, the command's latency for the engine and one for the read. -/
def Obligations.RunStatementExecutesItsCommand : Prop :=
  ∀ (s : State) (i : Instr) (rest : List HostOp) (extra : Nat) (lats : List Nat) (sch : List Turn),
    i.WellFormed → s.resetAsserted = false → s.busy = false → s.err = false →
    s.program = (Stmt.run i).expand ++ rest → s.latencies = extra :: lats →
    s.schedule = .host :: (List.replicate (extra + 1) .engine ++ .host :: sch) →
      ∃ t u : State, steps (extra + 3) s = .next t ∧
        exec i { s with
          status := acceptStatus s.status (encode i)
          engine := .busy (encode i) 1
          program := .wait :: rest
          latencies := lats
          schedule := .host :: sch
          turns := s.turns + (extra + 2) } = .next u ∧
        t = { u with program := rest, schedule := sch, turns := u.turns + 1, observed := u.observed ++ [⟨0x08, u.status⟩] } ∧
        t.busy = false ∧ t.done = true

/-! ## Reset -/

/-- R230, R231: asserting reset zeroes every register, idles the engine and abandons a running command; while it is asserted the engine
does nothing; its release leaves the block in the reset state; the tables are unchanged. The state after reset reads 0 everywhere. -/
def Obligations.ResetZeroesTheBlock : Prop :=
  (∀ r : Reg, State.reset.readReg r = 0#64) ∧ State.reset.engine = .idle ∧
  (∀ s : State, s.nextTurn = .assertReset → ∃ t : State, step s = .next t ∧
    (∀ r : Reg, t.readReg r = 0#64) ∧ t.engine = .idle ∧ t.resetAsserted = true ∧ t.tables = s.tables) ∧
  (∀ s : State, s.nextTurn = .engine → s.resetAsserted = true → step s = .next s.turnTaken) ∧
  (∀ s : State, s.nextTurn = .releaseReset → s.resetAsserted = true → ∃ t : State, step s = .next t ∧
    (∀ r : Reg, t.readReg r = 0#64) ∧ t.engine = .idle ∧ t.resetAsserted = false ∧ t.tables = s.tables)

/-! ## Control commands -/

/-- R110: NOP is the all-zero word; it changes the life-cycle fields only, LASTOP being 0 from its acceptance, and it is not accepted
while ERR = 1. -/
def Obligations.NopResult : Prop :=
  decodeWord 0x0000000000000000#64 = .ok .nop ∧
  (∀ s : State, exec .nop s = .next { s with status := okStatus s.status, engine := .idle }) ∧
  (∀ st : Word, (okStatus (acceptStatus st 0x0000000000000000#64)).extractLsb' 16 8 = 0x00#8) ∧
  (∀ s : State, s.err = true → s.accepts 0x0000000000000000#64 = false)

/-- R111: CLEAR clears ERR (bit 2), LOST (bit 3) and ERRCODE (bits 11:8), completes, and changes nothing else; LASTOP is 0x01 from its
acceptance. It has one word, the only one accepted while ERR = 1; a CLEAR word with a nonzero ARG or RSVD is illegal. -/
def Obligations.ClearResult : Prop :=
  (∀ w : Word, decodeWord w = .ok .clear ↔ w = 0x0000000000000001#64) ∧
  (∀ w : Word, cmdOp w = 0x01#8 → w ≠ 0x0000000000000001#64 → ∃ e, decodeWord w = .error e) ∧
  (∀ (s : State) (w : Word), s.err = true → (s.accepts w = true ↔ s.busy = false ∧ w = 0x0000000000000001#64)) ∧
  (∀ st : Word, (okStatus (acceptStatus st 0x0000000000000001#64)).extractLsb' 16 8 = 0x01#8) ∧
  (∀ s : State, exec .clear s =
    .next { s with status := (s.status &&& 0xFFFFFFFFFFFFF0F0#64) ||| 0x2#64, engine := .idle })

/-! ## Modular exponentiation and the quadratic-residue detector -/

/-- R124: MODEXP puts OPA ^ OPB mod OPM into RESULT for every OPA and OPB and every nonzero OPM, and changes nothing else; OPM = 0 ends
in MODULUS (2). -/
def Obligations.ModexpResult : Prop :=
  decodeWord 0x0000000000000010#64 = .ok .modexp ∧
  ∀ s : State,
    (s.opm ≠ 0#64 →
      exec .modexp s = .next { s with
        result := BitVec.ofNat 64 (s.opa.toNat ^ s.opb.toNat % s.opm.toNat), status := okStatus s.status, engine := .idle }) ∧
    (s.opm = 0#64 → exec .modexp s = .next (s.failed 2#4))

/-- R122, R123: both reference algorithms return `modpow(b, e, m)` for every 64-bit base and exponent and every modulus of at least 1, so
MODEXP_ALGO changes no result. -/
def Obligations.ReferenceAlgorithmsAgree : Prop :=
  ∀ (algo : ModexpAlgo) (b e m : Nat), b < 2 ^ 64 → e < 2 ^ 64 → 1 ≤ m → m < 2 ^ 64 → modPowBy algo b e m = b ^ e % m

/-- R128: for odd OPM ≥ 3 LEGENDRE maps the Euler value 0, 1 or p - 1 to 0, 1 or all ones in RESULT and changes nothing else, and any
other Euler value ends in NOTPRIME (3); OPM < 3 or even ends in MODULUS (2). OPB is not read. -/
def Obligations.LegendreResult : Prop :=
  decodeWord 0x0000000000000011#64 = .ok .legendre ∧
  ∀ (s : State) (t : Nat), t = s.opa.toNat ^ ((s.opm.toNat - 1) / 2) % s.opm.toNat →
    ((s.opm.toNat < 3 ∨ s.opm.toNat % 2 = 0) → exec .legendre s = .next (s.failed 2#4)) ∧
    (3 ≤ s.opm.toNat → s.opm.toNat % 2 = 1 →
      (t = 0 → exec .legendre s = .next { s with result := 0#64, status := okStatus s.status, engine := .idle }) ∧
      (t = 1 → exec .legendre s = .next { s with result := 1#64, status := okStatus s.status, engine := .idle }) ∧
      (t = s.opm.toNat - 1 →
        exec .legendre s = .next { s with
          result := 0xFFFFFFFFFFFFFFFF#64, status := okStatus s.status, engine := .idle }) ∧
      (t ≠ 0 → t ≠ 1 → t ≠ s.opm.toNat - 1 → exec .legendre s = .next (s.failed 3#4)))

/-- R127, R128: for an odd prime OPM, RESULT is the Legendre symbol of OPA as a 64-bit two's-complement number, and there is no error. -/
def Obligations.LegendreIsTheLegendreSymbol : Prop :=
  ∀ (s : State) (p : Nat) [Fact p.Prime], p ≠ 2 → s.opm.toNat = p →
    exec .legendre s = .next { s with
      result := BitVec.ofInt 64 (legendreSym p (s.opa.toNat : ℤ)), status := okStatus s.status, engine := .idle }

/-- R125: two parties that exchange their MODEXP public keys compute the same shared key. -/
def Obligations.DiffieHellmanAgreement : Prop :=
  ∀ (s : State) (g x y q : Word), q ≠ 0#64 →
    ∃ pubA pubB keyA keyB : State,
      exec .modexp { s with opa := g, opb := x, opm := q } = .next pubA ∧
      exec .modexp { s with opa := g, opb := y, opm := q } = .next pubB ∧
      exec .modexp { s with opa := pubB.result, opb := x, opm := q } = .next keyA ∧
      exec .modexp { s with opa := pubA.result, opb := y, opm := q } = .next keyB ∧
      keyA.result = keyB.result ∧
      keyA.result.toNat = g.toNat ^ (x.toNat * y.toNat) % q.toNat

/-! ## The quadratic-residue CSPRNG -/

/-- R142: a BBS_SEED whose operands pass the checks writes p, q, N = p·q, X = s² mod N, BBSV (bit 4) and RESULT = N and changes nothing
else, so KEY, SUBKEYS and SKV are untouched (R242). Failing the mod-4 test, p = q or a prime dividing the seed ends in BBSPARAM (4);
otherwise p·q ≥ 2^64 ends in BBSRANGE (5). -/
def Obligations.BbsSeedResult : Prop :=
  decodeWord 0x0000000000000020#64 = .ok .bbsSeed ∧
  ∀ s : State,
    ((s.opb.toNat % 4 ≠ 3 ∨ s.opm.toNat % 4 ≠ 3 ∨ s.opb = s.opm ∨ s.opb.toNat ∣ s.opa.toNat ∨ s.opm.toNat ∣ s.opa.toNat) →
      exec .bbsSeed s = .next (s.failed 4#4)) ∧
    (s.opb.toNat % 4 = 3 → s.opm.toNat % 4 = 3 → s.opb ≠ s.opm →
      ¬ s.opb.toNat ∣ s.opa.toNat → ¬ s.opm.toNat ∣ s.opa.toNat →
      (2 ^ 64 ≤ s.opb.toNat * s.opm.toNat → exec .bbsSeed s = .next (s.failed 5#4)) ∧
      (s.opb.toNat * s.opm.toNat < 2 ^ 64 →
        exec .bbsSeed s = .next { s with
          bbsP := s.opb
          bbsQ := s.opm
          bbsN := BitVec.ofNat 64 (s.opb.toNat * s.opm.toNat)
          bbsX := BitVec.ofNat 64 (s.opa.toNat ^ 2 % (s.opb.toNat * s.opm.toNat))
          result := BitVec.ofNat 64 (s.opb.toNat * s.opm.toNat)
          status := okStatus s.status ||| 0x10#64
          engine := .idle }))

/-- R143 to R145: on a seeded generator BBS_NEXT c with c ≤ 64 squares X modulo N c times and puts the low bits of the successive
residues, the first emitted being the most significant, into RESULT; nothing else changes. Without a seed it ends in NOSEED (6),
whatever the count; with a seed a count above 64 ends in COUNT (7). BBS_NEXT a followed by BBS_NEXT b emits the bits of one
BBS_NEXT (a + b), split at bit a, and leaves the same residue. -/
def Obligations.BbsNextResult : Prop :=
  (∀ c : Nat, c < 256 → decodeWord (BitVec.ofNat 64 (c * 0x100 + 0x21)) = .ok (.bbsNext c)) ∧
  (∀ (s : State) (c : Nat),
    (s.bbsv = false → exec (.bbsNext c) s = .next (s.failed 6#4)) ∧
    (s.bbsv = true → 64 < c → exec (.bbsNext c) s = .next (s.failed 7#4)) ∧
    (s.bbsv = true → c ≤ 64 →
      exec (.bbsNext c) s = .next { s with
        bbsX := BitVec.ofNat 64 ((fun y => y * y % s.bbsN.toNat)^[c] s.bbsX.toNat)
        result := BitVec.ofNat 64
          (∑ k ∈ Finset.Icc 1 c, ((fun y => y * y % s.bbsN.toNat)^[k] s.bbsX.toNat % 2) * 2 ^ (c - k))
        status := okStatus s.status
        engine := .idle })) ∧
  (∀ (s : State) (a b : Nat), s.bbsv = true → s.bbsX.toNat < s.bbsN.toNat → a + b ≤ 64 →
    ∃ t u v : State, exec (.bbsNext a) s = .next t ∧ exec (.bbsNext b) t = .next u ∧ exec (.bbsNext (a + b)) s = .next v ∧
      v.result.toNat = t.result.toNat * 2 ^ b + u.result.toNat ∧ v.bbsX = u.bbsX)

/-- R142, R145: after a BBS_SEED of seed s that succeeds, BBS_NEXT c leaves the residue s^(2^(c+1)) mod N. -/
def Obligations.SeededResidueClosedForm : Prop :=
  ∀ (s t : State) (c : Nat), s.err = false → exec .bbsSeed s = .next t → t.err = false → c ≤ 64 →
    ∃ u : State, exec (.bbsNext c) t = .next u ∧
      u.bbsX.toNat = s.opa.toNat ^ 2 ^ (c + 1) % (s.opb.toNat * s.opm.toNat)

/-- R147, R148: KEYGEN takes the next ten bits, the first as key bit 9, as KEY and RESULT, writes their schedule into SUBKEYS, sets SKV
(bit 5) and advances X by ten squarings; nothing else changes. Without a seed it ends in NOSEED (6). It emits what BBS_NEXT 10 emits
from the same state, and a KEYSCHED after it succeeds and recomputes the same SUBKEYS. -/
def Obligations.KeygenResult : Prop :=
  decodeWord 0x0000000000000022#64 = .ok .keygen ∧
  (∀ (s : State) (k : Nat),
    k = ∑ j ∈ Finset.Icc 1 10, ((fun y => y * y % s.bbsN.toNat)^[j] s.bbsX.toNat % 2) * 2 ^ (10 - j) →
    k < 2 ^ 10 ∧
    (s.bbsv = false → exec .keygen s = .next (s.failed 6#4)) ∧
    (s.bbsv = true →
      exec .keygen s = .next { s with
        bbsX := BitVec.ofNat 64 ((fun y => y * y % s.bbsN.toNat)^[10] s.bbsX.toNat)
        key := BitVec.ofNat 64 k
        subkeys := BitVec.ofNat 64 ((schedule s.tables k).1 * 2 ^ 8 + (schedule s.tables k).2)
        result := BitVec.ofNat 64 k
        status := okStatus s.status ||| 0x20#64
        engine := .idle })) ∧
  (∀ s : State, s.bbsv = true →
    ∃ t u v : State, exec .keygen s = .next t ∧ exec (.bbsNext 10) s = .next u ∧ exec .keysched t = .next v ∧
      t.result = u.result ∧ t.bbsX = u.bbsX ∧
      v.subkeys = t.subkeys ∧ v.skv = true ∧ v.result = t.subkeys ∧ v.err = t.err)

/-! ## The Feistel cipher and the permutation unit -/

/-- R177: KEYSCHED on a KEY below 2^10 writes SK1·2^8 + SK2 into SUBKEYS and RESULT, sets SKV (bit 5), and changes nothing else; a wider
KEY ends in WIDTH (8). -/
def Obligations.KeyschedResult : Prop :=
  decodeWord 0x0000000000000030#64 = .ok .keysched ∧
  ∀ s : State,
    (2 ^ 10 ≤ s.key.toNat → exec .keysched s = .next (s.failed 8#4)) ∧
    (s.key.toNat < 2 ^ 10 →
      exec .keysched s = .next { s with
        subkeys := BitVec.ofNat 64 ((schedule s.tables s.key.toNat).1 * 2 ^ 8 + (schedule s.tables s.key.toNat).2)
        result := BitVec.ofNat 64 ((schedule s.tables s.key.toNat).1 * 2 ^ 8 + (schedule s.tables s.key.toNat).2)
        status := okStatus s.status ||| 0x20#64
        engine := .idle })

/-- R168, R180: with SKV = 1 and an 8-bit OPA, ENC puts enc(OPA, SUBKEYS[15:8], SUBKEYS[7:0]) into RESULT and changes nothing else. The
pipeline is written out: IP, round 1 with SK1 = SUBKEYS[15:8], the half swap, round 2 with SK2 = SUBKEYS[7:0], IPINV (F is written out in
FfuncResult). SKV = 0 ends in NOKEY (9) whatever OPA holds, and otherwise a wider OPA ends in WIDTH (8). -/
def Obligations.EncResult : Prop :=
  decodeWord 0x0000000000000031#64 = .ok .enc ∧
  ∀ s : State,
    (s.skv = false → exec .enc s = .next (s.failed 9#4)) ∧
    (s.skv = true → 2 ^ 8 ≤ s.opa.toNat → exec .enc s = .next (s.failed 8#4)) ∧
    (s.skv = true → s.opa.toNat < 2 ^ 8 →
      ∀ k1 k2 b0 b1 b2 b3 : Nat,
        k1 = (s.subkeys.extractLsb' 8 8).toNat → k2 = (s.subkeys.extractLsb' 0 8).toNat →
        b0 = perm s.tables.ip 8 s.opa.toNat →
        b1 = (b0 / 16 % 16 ^^^ roundFunction s.tables (b0 % 16) k1) * 16 + b0 % 16 →
        b2 = perm [5, 6, 7, 8, 1, 2, 3, 4] 8 b1 →
        b3 = (b2 / 16 % 16 ^^^ roundFunction s.tables (b2 % 16) k2) * 16 + b2 % 16 →
        exec .enc s = .next { s with
          result := BitVec.ofNat 64 (perm s.tables.ipinv 8 b3)
          status := okStatus s.status
          engine := .idle })

/-- R168, R183: with SKV = 1 and an 8-bit OPA, DEC puts dec(OPA, SUBKEYS[15:8], SUBKEYS[7:0]) into RESULT and changes nothing else. The
pipeline is that of ENC with the subkeys in reverse order: IP, round 1 with SK2 = SUBKEYS[7:0], the half swap, round 2 with
SK1 = SUBKEYS[15:8], IPINV. SKV = 0 ends in NOKEY (9), and otherwise a wider OPA ends in WIDTH (8). -/
def Obligations.DecResult : Prop :=
  decodeWord 0x0000000000000032#64 = .ok .dec ∧
  ∀ s : State,
    (s.skv = false → exec .dec s = .next (s.failed 9#4)) ∧
    (s.skv = true → 2 ^ 8 ≤ s.opa.toNat → exec .dec s = .next (s.failed 8#4)) ∧
    (s.skv = true → s.opa.toNat < 2 ^ 8 →
      ∀ k1 k2 b0 b1 b2 b3 : Nat,
        k1 = (s.subkeys.extractLsb' 0 8).toNat → k2 = (s.subkeys.extractLsb' 8 8).toNat →
        b0 = perm s.tables.ip 8 s.opa.toNat →
        b1 = (b0 / 16 % 16 ^^^ roundFunction s.tables (b0 % 16) k1) * 16 + b0 % 16 →
        b2 = perm [5, 6, 7, 8, 1, 2, 3, 4] 8 b1 →
        b3 = (b2 / 16 % 16 ^^^ roundFunction s.tables (b2 % 16) k2) * 16 + b2 % 16 →
        exec .dec s = .next { s with
          result := BitVec.ofNat 64 (perm s.tables.ipinv 8 b3)
          status := okStatus s.status
          engine := .idle })

/-- R166, R174: FROUND on an 8-bit OPA and an 8-bit OPB puts fK(OPA, OPB) into RESULT and changes nothing else, the right half passing
through unchanged; a wider operand ends in WIDTH (8). FROUND twice with the same subkey restores the block, for every legal table
record. -/
def Obligations.FroundResult : Prop :=
  decodeWord 0x0000000000000033#64 = .ok .fround ∧
  (∀ s : State,
    ((2 ^ 8 ≤ s.opa.toNat ∨ 2 ^ 8 ≤ s.opb.toNat) → exec .fround s = .next (s.failed 8#4)) ∧
    (s.opa.toNat < 2 ^ 8 → s.opb.toNat < 2 ^ 8 →
      exec .fround s = .next { s with
        result := BitVec.ofNat 64
          ((s.opa.toNat / 16 ^^^ roundFunction s.tables (s.opa.toNat % 16) s.opb.toNat) * 16 + s.opa.toNat % 16)
        status := okStatus s.status
        engine := .idle })) ∧
  (∀ s : State, s.tables.legal = true → s.opa.toNat < 2 ^ 8 → s.opb.toNat < 2 ^ 8 →
    ∃ t u : State, exec .fround s = .next t ∧ exec .fround { t with opa := t.result } = .next u ∧
      t.result.toNat < 2 ^ 8 ∧ t.result.toNat % 16 = s.opa.toNat % 16 ∧ u.result = s.opa)

/-- R164, R165, R171: FFUNC on a 4-bit OPA and an 8-bit OPB puts F(OPA, OPB) into RESULT and changes nothing else; a wider operand ends
in WIDTH (8). F is written out: the expansion EP, its high half XOR the high half of the subkey into S0 and its low half XOR the low half
into S1, P4 of the two 2-bit results with S0's in front. Under OUTER an S-box takes its row from bits 3 and 0 of its input and its column
from bits 2 and 1, under SPLIT its row from bits 3:2 and its column from bits 1:0. -/
def Obligations.FfuncResult : Prop :=
  decodeWord 0x0000000000000034#64 = .ok .ffunc ∧
  ∀ s : State,
    ((2 ^ 4 ≤ s.opa.toNat ∨ 2 ^ 8 ≤ s.opb.toNat) → exec .ffunc s = .next (s.failed 8#4)) ∧
    (s.opa.toNat < 2 ^ 4 → s.opb.toNat < 2 ^ 8 →
      ∀ e t0 t1 : Nat,
        e = perm s.tables.ep 4 s.opa.toNat →
        t0 = e / 16 % 16 ^^^ s.opb.toNat / 16 →
        t1 = e % 16 ^^^ s.opb.toNat % 16 →
        (s.tables.sboxIndex = .outer →
          exec .ffunc s = .next { s with
            result := BitVec.ofNat 64 (perm s.tables.p4 4
              (((s.tables.s0.getD (2 * (t0 / 8) + t0 % 2) []).getD (2 * (t0 / 4 % 2) + t0 / 2 % 2) 0).val * 4 +
                ((s.tables.s1.getD (2 * (t1 / 8) + t1 % 2) []).getD (2 * (t1 / 4 % 2) + t1 / 2 % 2) 0).val))
            status := okStatus s.status
            engine := .idle }) ∧
        (s.tables.sboxIndex = .split →
          exec .ffunc s = .next { s with
            result := BitVec.ofNat 64 (perm s.tables.p4 4
              (((s.tables.s0.getD (t0 / 4) []).getD (t0 % 4) 0).val * 4 +
                ((s.tables.s1.getD (t1 / 4) []).getD (t1 % 4) 0).val))
            status := okStatus s.status
            engine := .idle }))

/-- R160, R162, R169: PERM with a selector of 0 to 8 and an OPA that fits the table's input puts into RESULT the value whose output
position k is input position T[k], both counted from the most significant bit, and changes nothing else; a selector above 8 ends in
PERMSEL (10) whatever OPA holds, and otherwise an OPA too wide for the table ends in WIDTH (8). The nine selectors are written out with
their tables, input widths and output widths, SW, LS1 and LS2 with their entries. -/
def Obligations.PermResult : Prop :=
  (∀ sel : Nat, sel < 256 → decodeWord (BitVec.ofNat 64 (sel * 0x100 + 0x38)) = .ok (.perm sel)) ∧
  (∀ (s : State) (sel : Nat), 8 < sel → exec (.perm sel) s = .next (s.failed 10#4)) ∧
  (∀ (s : State) (sel : Nat) (table : List Nat) (w n : Nat),
    (sel, table, w, n) ∈
      [ (0, s.tables.ip, 8, 8), (1, s.tables.ipinv, 8, 8), (2, s.tables.p10, 10, 10), (3, s.tables.p8, 10, 8),
        (4, s.tables.p4, 4, 4), (5, s.tables.ep, 4, 8), (6, [5, 6, 7, 8, 1, 2, 3, 4], 8, 8),
        (7, [2, 3, 4, 5, 1, 7, 8, 9, 10, 6], 10, 10), (8, [3, 4, 5, 1, 2, 8, 9, 10, 6, 7], 10, 10) ] →
      (2 ^ w ≤ s.opa.toNat → exec (.perm sel) s = .next (s.failed 8#4)) ∧
      (s.tables.legal = true → s.opa.toNat < 2 ^ w →
        ∃ t : State, exec (.perm sel) s = .next t ∧
          t = { s with result := t.result, status := okStatus s.status, engine := .idle } ∧
          t.result.toNat < 2 ^ n ∧
          ∀ k : Nat, 1 ≤ k → k ≤ n →
            t.result.toNat.testBit (n - k) = s.opa.toNat.testBit (w - table.getD (k - 1) 0)))

/-- R168, R183, R185: DEC after ENC under the same SUBKEYS returns the plaintext, for every legal table record, every SUBKEYS and every
block. -/
def Obligations.DecryptUndoesEncrypt : Prop :=
  ∀ s : State, s.tables.legal = true → s.skv = true → s.opa.toNat < 2 ^ 8 →
    ∃ t u : State, exec .enc s = .next t ∧ exec .dec { t with opa := t.result } = .next u ∧
      t.result.toNat < 2 ^ 8 ∧ t.err = s.err ∧ u.err = s.err ∧ u.result = s.opa

/-- R167: the rotation of the two halves by K1_SHIFT = 1 and K2_SHIFT = 2 is what the tables LS1 and LS2 do (their
entries written out from R160), so the key schedule is a composition of permutations. -/
def Obligations.KeyScheduleByTables : Prop :=
  ∀ (ft : FeistelTables) (k : Nat), ft.legal = true → k < 2 ^ 10 →
    schedule ft k =
      (perm ft.p8 10 (perm [2, 3, 4, 5, 1, 7, 8, 9, 10, 6] 10 (perm ft.p10 10 k)),
        perm ft.p8 10 (perm [3, 4, 5, 1, 2, 8, 9, 10, 6, 7] 10 (perm ft.p10 10 k)))

/-- R163, R168: under a legal record and fixed subkeys ENC maps different blocks to different results, so each table of ENC is a
bijection on 0 to 255. -/
def Obligations.EncryptionIsInjective : Prop :=
  ∀ (s t u : State) (b c : Word), s.tables.legal = true → s.skv = true → b.toNat < 2 ^ 8 → c.toNat < 2 ^ 8 →
    exec .enc { s with opa := b } = .next t → exec .enc { s with opa := c } = .next u → t.result = u.result → b = c

/-! ## The whole machine -/

/-- R23 with R22, R28, R106, R200 and R230: every step keeps the machine invariant. -/
def Obligations.StepKeepsInvariant : Prop :=
  ∀ s t : State, Inv s → step s = .next t → Inv t

/-- The state after reset meets the machine invariant (R230; the table record is the default of R160). -/
def Obligations.ResetMeetsInvariant : Prop := Inv State.reset

/-- R23: the STATUS invariants hold in every reachable state. That a state is reachable when some run from State.loaded ends in it, whatever
host program, interleaving, latencies and legal table record are loaded, is the model's choice (log entry 4). -/
def Obligations.ReachableStatusInvariants : Prop :=
  ∀ (ft : FeistelTables) (p : List HostOp) (sch : List Turn) (lats : List Nat) (k : Nat) (t : State),
    ft.legal = true → steps k (State.loaded ft p sch lats) = .next t → StatusInvariants t

/-- R29, R231: no step of any agent, reset among them, changes the tables. -/
def Obligations.TablesNeverChange : Prop :=
  ∀ s t : State, step s = .next t → t.tables = s.tables
end

