-- ==== Sys2Proof/Laws/Arith.lean ====
section
/-! SUPPORT. What the arithmetic computes: BINARY_LR is the modular power (R121, R122), a BBS run iterates the squaring (R143, R144), and
a permutation gathers bits (R162); bounds of every cipher function. -/

namespace Sys2Proof.Machine

/-! ## Modular power -/

/-- The exponent bits from `i` up, one more bit taken. -/
theorem shiftRight_step (e i : Nat) : e >>> i = 2 * (e >>> (i + 1)) + (e.testBit i).toNat := by
  rw [Nat.shiftRight_succ, Nat.testBit_eq_decide_div_mod_eq, ← Nat.shiftRight_eq_div_pow]
  rcases Nat.mod_two_eq_zero_or_one (e >>> i) with h | h <;> simp [h] <;> omega

/-- The loop of BINARY_LR: starting from the power for the bits at and above `i`, it ends with the power for all bits. -/
theorem binaryLRLoop_spec (b e m : Nat) : ∀ i r, r = b ^ (e >>> i) % m → binaryLRLoop (b % m) e m i r = b ^ e % m
  | 0, r, h => by simpa [binaryLRLoop] using h
  | i + 1, r, h => by
    have hstep := shiftRight_step e i
    cases hb : e.testBit i with
    | true =>
      have he : e >>> i = 2 * (e >>> (i + 1)) + 1 := by simpa [hb] using hstep
      have : r * r % m * (b % m) % m = b ^ (e >>> i) % m := by
        rw [h, he, pow_succ, two_mul, pow_add]
        simp [Nat.mul_mod]
      simpa [binaryLRLoop, hb] using binaryLRLoop_spec b e m i _ this
    | false =>
      have he : e >>> i = 2 * (e >>> (i + 1)) := by simpa [hb] using hstep
      have : r * r % m = b ^ (e >>> i) % m := by
        rw [h, he, two_mul, pow_add, ← Nat.mul_mod]
      simpa [binaryLRLoop, hb] using binaryLRLoop_spec b e m i _ this

/-- The MODEXP datapath computes the mathematical function of R121 on every 64-bit exponent. -/
theorem modPow_eq (b e m : Nat) (he : e < 2 ^ 64) : modPow b e m = b ^ e % m := by
  refine binaryLRLoop_spec b e m 64 (1 % m) ?_
  rw [Nat.shiftRight_eq_div_pow, Nat.div_eq_of_lt he, pow_zero]

/-! ## The BBS generator -/

/-- `c` steps iterate the squaring and shift the emitted bits in below `out`. -/
theorem bbsRun_spec (n : Nat) : ∀ c x out,
    bbsRun n c x out = ((fun y => y * y % n)^[c] x,
      out * 2 ^ c + ∑ k ∈ Finset.Icc 1 c, ((fun y => y * y % n)^[k] x % 2) * 2 ^ (c - k))
  | 0, x, out => by simp [bbsRun]
  | c + 1, x, out => by
    rw [bbsRun, bbsRun_spec n c, bbsStep]
    refine Prod.ext rfl ?_
    have hs : ∑ k ∈ Finset.Icc 1 (c + 1), ((fun y => y * y % n)^[k] x % 2) * 2 ^ (c + 1 - k) =
        (x * x % n % 2) * 2 ^ c + ∑ k ∈ Finset.Icc 1 c, ((fun y => y * y % n)^[k + 1] x % 2) * 2 ^ (c - k) := by
      rw [← Finset.sum_Ioc_add_eq_sum_Icc (by omega), add_comm]
      congr 1
      refine (Finset.sum_nbij (fun k => k + 1) ?_ ?_ ?_ ?_).symm
      · intro k hk; simp only [Finset.mem_Icc, Finset.mem_Ioc] at hk ⊢; omega
      · intro a _ b _ hab; simpa using hab
      · intro k hk
        simp only [Finset.coe_Ioc, Set.mem_Ioc] at hk
        exact ⟨k - 1, by simp only [Finset.coe_Icc, Set.mem_Icc]; omega, by simp only; omega⟩
      · intro k _; rw [show c + 1 - (k + 1) = c - k by omega]
    rw [hs]
    simp only [Function.iterate_succ, Function.comp_apply, pow_succ]
    ring

/-- The accumulated bits fit their count. -/
theorem bbsRun_lt (n : Nat) : ∀ c x out, (bbsRun n c x out).2 < (out + 1) * 2 ^ c
  | 0, x, out => by simp [bbsRun]
  | c + 1, x, out => by
    have h := bbsRun_lt n c (bbsStep x n).1 (out * 2 + (bbsStep x n).2)
    have hz : (bbsStep x n).2 ≤ 1 := by simp only [bbsStep]; omega
    rw [bbsRun]
    calc _ < _ := h
      _ ≤ (out + 1) * 2 * 2 ^ c := Nat.mul_le_mul_right _ (by omega)
      _ = _ := by rw [pow_succ]; ring

/-- From a residue below `n` every later residue is below `n`. -/
theorem bbsRun_residue_lt (n : Nat) : ∀ c x out, x < n → (bbsRun n c x out).1 < n
  | 0, _, _, h => h
  | c + 1, x, out, h => bbsRun_residue_lt n c _ _ (Nat.mod_lt _ (by omega))

/-- A run of `a + b` steps is a run of `a` steps and then one of `b` (R145). -/
theorem bbsRun_add (n a b x out : Nat) : bbsRun n (a + b) x out = bbsRun n b (bbsRun n a x out).1 (bbsRun n a x out).2 := by
  induction a generalizing x out with
  | zero => simp [bbsRun]
  | succ a ih => rw [show a + 1 + b = (a + b) + 1 by omega, bbsRun, bbsRun]; exact ih _ _

/-- The accumulator only shifts up in front of the new bits. -/
theorem bbsRun_accumulator (n c x out : Nat) :
    (bbsRun n c x out).1 = (bbsRun n c x 0).1 ∧ (bbsRun n c x out).2 = out * 2 ^ c + (bbsRun n c x 0).2 := by
  rw [bbsRun_spec, bbsRun_spec]; simp

/-! ## Permutations -/

/-- The gathered bits, with an accumulator. -/
theorem perm_foldl_spec (w v : Nat) : ∀ (table : List Nat) (acc : Nat),
    table.foldl (fun acc t => acc * 2 + (v.testBit (w - t)).toNat) acc = acc * 2 ^ table.length + perm table w v
  | [], acc => by simp [perm]
  | t :: ts, acc => by
    have hp : perm (t :: ts) w v = (0 * 2 + (v.testBit (w - t)).toNat) * 2 ^ ts.length + perm ts w v :=
      perm_foldl_spec w v ts _
    rw [List.foldl_cons, perm_foldl_spec w v ts, hp, List.length_cons, pow_succ]
    ring

/-- A permutation, one entry at a time: the first entry gives the most significant bit. -/
theorem perm_cons (w v t : Nat) (ts : List Nat) :
    perm (t :: ts) w v = (v.testBit (w - t)).toNat * 2 ^ ts.length + perm ts w v := by
  rw [perm, List.foldl_cons, perm_foldl_spec]; simp

/-- A permutation's value fits its number of entries (R162). -/
theorem perm_lt (w v : Nat) : ∀ table : List Nat, perm table w v < 2 ^ table.length
  | [] => by simp [perm]
  | t :: ts => by
    have h := perm_lt w v ts
    rw [perm_cons, List.length_cons, pow_succ]
    have hb : (v.testBit (w - t)).toNat ≤ 1 := Bool.toNat_le _
    nlinarith

/-- Output position `k + 1` of a permutation is input position `T[k + 1]` (R162). -/
theorem perm_testBit (w v : Nat) : ∀ (table : List Nat) (k : Nat) (h : k < table.length),
    (perm table w v).testBit (table.length - 1 - k) = v.testBit (w - table[k])
  | t :: ts, 0, _ => by
    have h := perm_lt w v ts
    rw [perm_cons, List.length_cons, Nat.add_sub_cancel, Nat.sub_zero, Nat.mul_comm, Nat.testBit_two_pow_mul_add _ h]
    simp only [List.getElem_cons_zero]
    cases v.testBit (w - t) <;> simp
  | t :: ts, k + 1, hk => by
    have h := perm_lt w v ts
    have hk' : k < ts.length := by simpa using hk
    rw [perm_cons, List.length_cons, Nat.mul_comm, Nat.testBit_two_pow_mul_add _ h,
      show ts.length + 1 - 1 - (k + 1) = ts.length - 1 - k by omega, if_pos (by omega), perm_testBit w v ts k hk']
    rfl

/-! ## The cipher functions -/

/-- A field is below two to its width (R9). -/
theorem natField_lt (v hi lo : Nat) : natField v hi lo < 2 ^ (hi - lo + 1) := Nat.mod_lt _ (Nat.two_pow_pos _)

/-- The shapes a legal record has (R161, R162). -/
theorem legal_lengths {ft : FeistelTables} (h : ft.legal = true) :
    ft.p10.length = 10 ∧ ft.p8.length = 8 ∧ ft.ip.length = 8 ∧ ft.ipinv.length = 8 ∧ ft.ep.length = 8 ∧ ft.p4.length = 4 := by
  simp only [FeistelTables.legal, tableShape, Bool.and_eq_true, beq_iff_eq] at h
  tauto

/-- IPINV undoes IP under a legal record (R163). -/
theorem legal_ipinv_ip {ft : FeistelTables} (h : ft.legal = true) {v : Nat} (hv : v < 256) :
    perm ft.ipinv 8 (perm ft.ip 8 v) = v := by
  simp only [FeistelTables.legal, Bool.and_eq_true, List.all_eq_true, List.mem_range, beq_iff_eq] at h
  exact h.2 v hv

/-- The round function gives a 4-bit value under a legal record (R165). -/
theorem roundFunction_lt {ft : FeistelTables} (h : ft.legal = true) (r sk : Nat) : roundFunction ft r sk < 2 ^ 4 := by
  have := perm_lt 4 (sbox ft.sboxIndex ft.s0 (natField (perm ft.ep 4 r) 7 4 ^^^ natField sk 7 4) * 4 +
    sbox ft.sboxIndex ft.s1 (natField (perm ft.ep 4 r) 3 0 ^^^ natField sk 3 0)) ft.p4
  rwa [(legal_lengths h).2.2.2.2.2] at this

/-- A Feistel round gives an 8-bit value under a legal record (R166). -/
theorem feistelRound_lt {ft : FeistelTables} (h : ft.legal = true) (b sk : Nat) : feistelRound ft b sk < 2 ^ 8 := by
  have h1 : natField b 7 4 ^^^ roundFunction ft (natField b 3 0) sk < 2 ^ 4 :=
    Nat.xor_lt_two_pow (natField_lt b 7 4) (roundFunction_lt h _ _)
  have h2 := natField_lt b 3 0
  unfold feistelRound
  omega

/-- A Feistel round passes the right half through and XORs the left half (R166). -/
theorem feistelRound_halves {ft : FeistelTables} (h : ft.legal = true) (b sk : Nat) :
    natField (feistelRound ft b sk) 3 0 = natField b 3 0 ∧
      natField (feistelRound ft b sk) 7 4 = natField b 7 4 ^^^ roundFunction ft (natField b 3 0) sk := by
  have h1 : natField b 7 4 ^^^ roundFunction ft (natField b 3 0) sk < 2 ^ 4 :=
    Nat.xor_lt_two_pow (natField_lt b 7 4) (roundFunction_lt h _ _)
  have h2 := natField_lt b 3 0
  generalize hx : natField b 7 4 ^^^ roundFunction ft (natField b 3 0) sk = x at *
  generalize hy : natField b 3 0 = y at *
  simp only [feistelRound, hx, hy]
  constructor <;> simp only [natField] <;> omega

/-- A subkey is an 8-bit value under a legal record (R167). -/
theorem subkey_lt {ft : FeistelTables} (h : ft.legal = true) (k shift : Nat) : subkey ft k shift < 2 ^ 8 := by
  have := perm_lt 10 (rotl 5 (natField (perm ft.p10 10 k) 9 5) shift * 32 + rotl 5 (natField (perm ft.p10 10 k) 4 0) shift) ft.p8
  rwa [(legal_lengths h).2.1] at this

/-- Both subkeys together fit 16 bits under a legal record (R28). -/
theorem packSubkeys_schedule_lt {ft : FeistelTables} (h : ft.legal = true) (k : Nat) : packSubkeys (schedule ft k) < 2 ^ 16 := by
  have h1 := subkey_lt h k k1Shift
  have h2 := subkey_lt h k k2Shift
  simp only [packSubkeys, schedule]
  omega

/-- A field of a register, as a number (R9). -/
theorem natField_toNat (w : Word) (hi lo : Nat) : natField w.toNat hi lo = (w.extractLsb' lo (hi - lo + 1)).toNat := by
  simp [natField, BitVec.extractLsb'_toNat, Nat.shiftRight_eq_div_pow]

/-- A number below 2^64 survives the trip through a register. -/
theorem toNat_toWord {v : Nat} (h : v < 2 ^ 64) : (toWord v).toNat = v := by
  simp only [toWord, BitVec.toNat_ofNat]
  exact Nat.mod_eq_of_lt h

end Sys2Proof.Machine
end

