-- ==== Sys2Proof/Laws/Decode.lean ====
section
/-! SUPPORT. How the rows of the opcode map select words (R82): a row without an argument selects one word, a row with one the 256 words
that differ in ARG only. -/

namespace Sys2Proof

/-- A row whose ARG must be 0 selects exactly its pattern. -/
theorem wholeRow_selects (p w : Word) (b : Nat → Instr) : (OpcodeRow.mk p wholeWordMask b).selects w = (w == p) := by
  have h : w &&& wholeWordMask = w := by
    have : wholeWordMask = BitVec.allOnes 64 := by decide
    rw [this, BitVec.and_allOnes]
  simp [OpcodeRow.selects, h]

/-- A command word is its three fields put together (R80). -/
theorem toNat_fields (w : Word) : w.toNat = (cmdRsvd w).toNat * 2 ^ 16 + cmdArg w * 2 ^ 8 + (cmdOp w).toNat := by
  simp only [cmdRsvd, cmdArg, cmdOp, BitVec.extractLsb'_toNat, Nat.shiftRight_eq_div_pow]
  have := w.isLt
  omega

/-- The bits an argument row compares, as fields (R80, R82). -/
theorem and_argMask_toNat (w : Word) : (w &&& argMask).toNat = (cmdRsvd w).toNat * 2 ^ 16 + (cmdOp w).toNat := by
  have hsplit : w &&& argMask = (cmdRsvd w).setWidth 64 <<< 16 ||| (cmdOp w).setWidth 64 := by
    apply BitVec.eq_of_getLsbD_eq
    intro i hi
    simp only [argMask, cmdRsvd, cmdOp, BitVec.getLsbD_and, BitVec.getLsbD_or, BitVec.getLsbD_shiftLeft,
      BitVec.getLsbD_setWidth, BitVec.getLsbD_extractLsb']
    interval_cases i <;> simp
  have hr := (cmdRsvd w).isLt
  have ho : (cmdOp w).toNat < 2 ^ 16 := lt_of_lt_of_le (cmdOp w).isLt (by norm_num)
  rw [hsplit, BitVec.toNat_or, BitVec.toNat_shiftLeft, BitVec.toNat_setWidth, BitVec.toNat_setWidth,
    Nat.mod_eq_of_lt (by omega : (cmdRsvd w).toNat < 2 ^ 64), Nat.mod_eq_of_lt (by omega : (cmdOp w).toNat < 2 ^ 64),
    Nat.shiftLeft_eq, Nat.mod_eq_of_lt (by omega), Nat.mul_comm, ← Nat.two_pow_add_eq_or_of_lt ho]

/-- A row with an argument selects exactly the words `arg·0x100 + opcode` (R82, R88). -/
theorem argRow_selects_iff (op : Nat) (hop : op < 256) (w : Word) (b : Nat → Instr) :
    (OpcodeRow.mk (BitVec.ofNat 64 op) argMask b).selects w = true ↔ w = BitVec.ofNat 64 (cmdArg w * 0x100 + op) := by
  have h1 := toNat_fields w
  have h2 := and_argMask_toNat w
  have h3 := (cmdOp w).isLt
  have h4 : cmdArg w < 256 := (w.extractLsb' 8 8).isLt
  have h6 : cmdArg w * 0x100 + op < 2 ^ 64 := by norm_num at h4 ⊢; omega
  have h7 : op < 2 ^ 64 := by norm_num; omega
  simp only [OpcodeRow.selects, beq_iff_eq]
  constructor
  · intro h
    have h5 := congrArg BitVec.toNat h
    rw [h2, BitVec.toNat_ofNat, Nat.mod_eq_of_lt h7] at h5
    apply BitVec.eq_of_toNat_eq
    rw [BitVec.toNat_ofNat, Nat.mod_eq_of_lt h6, h1]
    linarith
  · intro h
    have h5 := congrArg BitVec.toNat h
    rw [BitVec.toNat_ofNat, Nat.mod_eq_of_lt h6, h1] at h5
    apply BitVec.eq_of_toNat_eq
    rw [h2, BitVec.toNat_ofNat, Nat.mod_eq_of_lt h7]
    linarith

end Sys2Proof
end

