-- ==== Sys2Proof/Laws/Flags.lean ====
section
/-! SUPPORT. The fields of STATUS: reading a field after writing one (R22), and the mask forms of the life-cycle updates. -/

namespace Sys2Proof.Machine

/-- A field write, bit by bit: inside the field the new value, outside it the old word. -/
theorem getLsbD_withWordField (w : Word) (lo : Nat) {len : Nat} (v : BitVec len) (i : Nat) (h : lo + len ≤ 64) :
    (withWordField w lo v).getLsbD i = if lo ≤ i ∧ i < lo + len then v.getLsbD (i - lo) else w.getLsbD i := by
  unfold withWordField
  by_cases hi : i < 64
  · by_cases hl : lo ≤ i
    · have h1 : i - lo < 64 := by omega
      by_cases hr : i < lo + len
      · have h2 : i - lo < len := by omega
        simp [hi, hl, hr, h2, Nat.not_lt.mpr hl]
      · have h2 : ¬ i - lo < len := by omega
        simp [hi, hl, hr, h2, BitVec.getLsbD_of_ge v (i - lo) (by omega)]
    · simp [hi, hl, Nat.lt_of_not_le hl]
  · have hw := BitVec.getLsbD_of_ge w i (by omega)
    have : ¬ (lo ≤ i ∧ i < lo + len) := by omega
    simp [hi, this, hw]

/-- A bit write of STATUS, bit by bit. -/
theorem getLsbD_withStatusBit (st : Word) (k : Nat) (b : Bool) (i : Nat) (h : k < 64) :
    (withStatusBit st k b).getLsbD i = if i = k then b else st.getLsbD i := by
  rw [withStatusBit, getLsbD_withWordField _ _ _ _ (by omega)]
  by_cases hik : i = k
  · subst hik; simp
  · rw [if_neg (by omega), if_neg hik]

/-! ## Each field after each field write -/

section FieldAfterWrite
variable (st : Word) (b : Bool) (c : BitVec 4) (op : Byte)

@[simp] theorem Status.busy_withBusy : Status.busy (Status.withBusy st b) = b := by
  rw [Status.busy, Status.withBusy, getLsbD_withStatusBit _ _ _ _ (by omega)]; rfl
@[simp] theorem Status.done_withBusy : Status.done (Status.withBusy st b) = Status.done st := by
  rw [Status.done, Status.withBusy, getLsbD_withStatusBit _ _ _ _ (by omega)]; rfl
@[simp] theorem Status.err_withBusy : Status.err (Status.withBusy st b) = Status.err st := by
  rw [Status.err, Status.withBusy, getLsbD_withStatusBit _ _ _ _ (by omega)]; rfl
@[simp] theorem Status.lost_withBusy : Status.lost (Status.withBusy st b) = Status.lost st := by
  rw [Status.lost, Status.withBusy, getLsbD_withStatusBit _ _ _ _ (by omega)]; rfl
@[simp] theorem Status.bbsv_withBusy : Status.bbsv (Status.withBusy st b) = Status.bbsv st := by
  rw [Status.bbsv, Status.withBusy, getLsbD_withStatusBit _ _ _ _ (by omega)]; rfl
@[simp] theorem Status.skv_withBusy : Status.skv (Status.withBusy st b) = Status.skv st := by
  rw [Status.skv, Status.withBusy, getLsbD_withStatusBit _ _ _ _ (by omega)]; rfl
@[simp] theorem Status.busy_withDone : Status.busy (Status.withDone st b) = Status.busy st := by
  rw [Status.busy, Status.withDone, getLsbD_withStatusBit _ _ _ _ (by omega)]; rfl
@[simp] theorem Status.done_withDone : Status.done (Status.withDone st b) = b := by
  rw [Status.done, Status.withDone, getLsbD_withStatusBit _ _ _ _ (by omega)]; rfl
@[simp] theorem Status.err_withDone : Status.err (Status.withDone st b) = Status.err st := by
  rw [Status.err, Status.withDone, getLsbD_withStatusBit _ _ _ _ (by omega)]; rfl
@[simp] theorem Status.lost_withDone : Status.lost (Status.withDone st b) = Status.lost st := by
  rw [Status.lost, Status.withDone, getLsbD_withStatusBit _ _ _ _ (by omega)]; rfl
@[simp] theorem Status.bbsv_withDone : Status.bbsv (Status.withDone st b) = Status.bbsv st := by
  rw [Status.bbsv, Status.withDone, getLsbD_withStatusBit _ _ _ _ (by omega)]; rfl
@[simp] theorem Status.skv_withDone : Status.skv (Status.withDone st b) = Status.skv st := by
  rw [Status.skv, Status.withDone, getLsbD_withStatusBit _ _ _ _ (by omega)]; rfl
@[simp] theorem Status.busy_withErr : Status.busy (Status.withErr st b) = Status.busy st := by
  rw [Status.busy, Status.withErr, getLsbD_withStatusBit _ _ _ _ (by omega)]; rfl
@[simp] theorem Status.done_withErr : Status.done (Status.withErr st b) = Status.done st := by
  rw [Status.done, Status.withErr, getLsbD_withStatusBit _ _ _ _ (by omega)]; rfl
@[simp] theorem Status.err_withErr : Status.err (Status.withErr st b) = b := by
  rw [Status.err, Status.withErr, getLsbD_withStatusBit _ _ _ _ (by omega)]; rfl
@[simp] theorem Status.lost_withErr : Status.lost (Status.withErr st b) = Status.lost st := by
  rw [Status.lost, Status.withErr, getLsbD_withStatusBit _ _ _ _ (by omega)]; rfl
@[simp] theorem Status.bbsv_withErr : Status.bbsv (Status.withErr st b) = Status.bbsv st := by
  rw [Status.bbsv, Status.withErr, getLsbD_withStatusBit _ _ _ _ (by omega)]; rfl
@[simp] theorem Status.skv_withErr : Status.skv (Status.withErr st b) = Status.skv st := by
  rw [Status.skv, Status.withErr, getLsbD_withStatusBit _ _ _ _ (by omega)]; rfl
@[simp] theorem Status.busy_withLost : Status.busy (Status.withLost st b) = Status.busy st := by
  rw [Status.busy, Status.withLost, getLsbD_withStatusBit _ _ _ _ (by omega)]; rfl
@[simp] theorem Status.done_withLost : Status.done (Status.withLost st b) = Status.done st := by
  rw [Status.done, Status.withLost, getLsbD_withStatusBit _ _ _ _ (by omega)]; rfl
@[simp] theorem Status.err_withLost : Status.err (Status.withLost st b) = Status.err st := by
  rw [Status.err, Status.withLost, getLsbD_withStatusBit _ _ _ _ (by omega)]; rfl
@[simp] theorem Status.lost_withLost : Status.lost (Status.withLost st b) = b := by
  rw [Status.lost, Status.withLost, getLsbD_withStatusBit _ _ _ _ (by omega)]; rfl
@[simp] theorem Status.bbsv_withLost : Status.bbsv (Status.withLost st b) = Status.bbsv st := by
  rw [Status.bbsv, Status.withLost, getLsbD_withStatusBit _ _ _ _ (by omega)]; rfl
@[simp] theorem Status.skv_withLost : Status.skv (Status.withLost st b) = Status.skv st := by
  rw [Status.skv, Status.withLost, getLsbD_withStatusBit _ _ _ _ (by omega)]; rfl
@[simp] theorem Status.busy_withBbsv : Status.busy (Status.withBbsv st b) = Status.busy st := by
  rw [Status.busy, Status.withBbsv, getLsbD_withStatusBit _ _ _ _ (by omega)]; rfl
@[simp] theorem Status.done_withBbsv : Status.done (Status.withBbsv st b) = Status.done st := by
  rw [Status.done, Status.withBbsv, getLsbD_withStatusBit _ _ _ _ (by omega)]; rfl
@[simp] theorem Status.err_withBbsv : Status.err (Status.withBbsv st b) = Status.err st := by
  rw [Status.err, Status.withBbsv, getLsbD_withStatusBit _ _ _ _ (by omega)]; rfl
@[simp] theorem Status.lost_withBbsv : Status.lost (Status.withBbsv st b) = Status.lost st := by
  rw [Status.lost, Status.withBbsv, getLsbD_withStatusBit _ _ _ _ (by omega)]; rfl
@[simp] theorem Status.bbsv_withBbsv : Status.bbsv (Status.withBbsv st b) = b := by
  rw [Status.bbsv, Status.withBbsv, getLsbD_withStatusBit _ _ _ _ (by omega)]; rfl
@[simp] theorem Status.skv_withBbsv : Status.skv (Status.withBbsv st b) = Status.skv st := by
  rw [Status.skv, Status.withBbsv, getLsbD_withStatusBit _ _ _ _ (by omega)]; rfl
@[simp] theorem Status.busy_withSkv : Status.busy (Status.withSkv st b) = Status.busy st := by
  rw [Status.busy, Status.withSkv, getLsbD_withStatusBit _ _ _ _ (by omega)]; rfl
@[simp] theorem Status.done_withSkv : Status.done (Status.withSkv st b) = Status.done st := by
  rw [Status.done, Status.withSkv, getLsbD_withStatusBit _ _ _ _ (by omega)]; rfl
@[simp] theorem Status.err_withSkv : Status.err (Status.withSkv st b) = Status.err st := by
  rw [Status.err, Status.withSkv, getLsbD_withStatusBit _ _ _ _ (by omega)]; rfl
@[simp] theorem Status.lost_withSkv : Status.lost (Status.withSkv st b) = Status.lost st := by
  rw [Status.lost, Status.withSkv, getLsbD_withStatusBit _ _ _ _ (by omega)]; rfl
@[simp] theorem Status.bbsv_withSkv : Status.bbsv (Status.withSkv st b) = Status.bbsv st := by
  rw [Status.bbsv, Status.withSkv, getLsbD_withStatusBit _ _ _ _ (by omega)]; rfl
@[simp] theorem Status.skv_withSkv : Status.skv (Status.withSkv st b) = b := by
  rw [Status.skv, Status.withSkv, getLsbD_withStatusBit _ _ _ _ (by omega)]; rfl
@[simp] theorem Status.busy_withErrCode : Status.busy (Status.withErrCode st c) = Status.busy st := by
  rw [Status.busy, Status.withErrCode, getLsbD_withWordField _ _ _ _ (by omega)]; rfl
@[simp] theorem Status.busy_withLastOp : Status.busy (Status.withLastOp st op) = Status.busy st := by
  rw [Status.busy, Status.withLastOp, getLsbD_withWordField _ _ _ _ (by omega)]; rfl
@[simp] theorem Status.done_withErrCode : Status.done (Status.withErrCode st c) = Status.done st := by
  rw [Status.done, Status.withErrCode, getLsbD_withWordField _ _ _ _ (by omega)]; rfl
@[simp] theorem Status.done_withLastOp : Status.done (Status.withLastOp st op) = Status.done st := by
  rw [Status.done, Status.withLastOp, getLsbD_withWordField _ _ _ _ (by omega)]; rfl
@[simp] theorem Status.err_withErrCode : Status.err (Status.withErrCode st c) = Status.err st := by
  rw [Status.err, Status.withErrCode, getLsbD_withWordField _ _ _ _ (by omega)]; rfl
@[simp] theorem Status.err_withLastOp : Status.err (Status.withLastOp st op) = Status.err st := by
  rw [Status.err, Status.withLastOp, getLsbD_withWordField _ _ _ _ (by omega)]; rfl
@[simp] theorem Status.lost_withErrCode : Status.lost (Status.withErrCode st c) = Status.lost st := by
  rw [Status.lost, Status.withErrCode, getLsbD_withWordField _ _ _ _ (by omega)]; rfl
@[simp] theorem Status.lost_withLastOp : Status.lost (Status.withLastOp st op) = Status.lost st := by
  rw [Status.lost, Status.withLastOp, getLsbD_withWordField _ _ _ _ (by omega)]; rfl
@[simp] theorem Status.bbsv_withErrCode : Status.bbsv (Status.withErrCode st c) = Status.bbsv st := by
  rw [Status.bbsv, Status.withErrCode, getLsbD_withWordField _ _ _ _ (by omega)]; rfl
@[simp] theorem Status.bbsv_withLastOp : Status.bbsv (Status.withLastOp st op) = Status.bbsv st := by
  rw [Status.bbsv, Status.withLastOp, getLsbD_withWordField _ _ _ _ (by omega)]; rfl
@[simp] theorem Status.skv_withErrCode : Status.skv (Status.withErrCode st c) = Status.skv st := by
  rw [Status.skv, Status.withErrCode, getLsbD_withWordField _ _ _ _ (by omega)]; rfl
@[simp] theorem Status.skv_withLastOp : Status.skv (Status.withLastOp st op) = Status.skv st := by
  rw [Status.skv, Status.withLastOp, getLsbD_withWordField _ _ _ _ (by omega)]; rfl

/-- Reading a field is unaffected by a write of bits that lie outside it. -/
theorem wordField_of_getLsbD_eq {w w' : Word} {lo len : Nat} (h : ∀ i, i < len → w'.getLsbD (lo + i) = w.getLsbD (lo + i)) :
    wordField w' lo len = wordField w lo len := by
  apply BitVec.eq_of_getLsbD_eq
  intro i hi
  simp [wordField, hi, h i hi]

/-- Reading back the field just written. -/
theorem wordField_withWordField (w : Word) (lo : Nat) {len : Nat} (v : BitVec len) (h : lo + len ≤ 64) :
    wordField (withWordField w lo v) lo len = v := by
  apply BitVec.eq_of_getLsbD_eq
  intro i hi
  simp [wordField, hi, getLsbD_withWordField _ _ _ _ h]

@[simp] theorem Status.errCode_withBusy : Status.errCode (Status.withBusy st b) = Status.errCode st :=
  wordField_of_getLsbD_eq fun i _ => by
    rw [Status.withBusy, getLsbD_withStatusBit _ _ _ _ (by omega), if_neg (by omega)]
@[simp] theorem Status.errCode_withDone : Status.errCode (Status.withDone st b) = Status.errCode st :=
  wordField_of_getLsbD_eq fun i _ => by
    rw [Status.withDone, getLsbD_withStatusBit _ _ _ _ (by omega), if_neg (by omega)]
@[simp] theorem Status.errCode_withErr : Status.errCode (Status.withErr st b) = Status.errCode st :=
  wordField_of_getLsbD_eq fun i _ => by
    rw [Status.withErr, getLsbD_withStatusBit _ _ _ _ (by omega), if_neg (by omega)]
@[simp] theorem Status.errCode_withLost : Status.errCode (Status.withLost st b) = Status.errCode st :=
  wordField_of_getLsbD_eq fun i _ => by
    rw [Status.withLost, getLsbD_withStatusBit _ _ _ _ (by omega), if_neg (by omega)]
@[simp] theorem Status.errCode_withBbsv : Status.errCode (Status.withBbsv st b) = Status.errCode st :=
  wordField_of_getLsbD_eq fun i _ => by
    rw [Status.withBbsv, getLsbD_withStatusBit _ _ _ _ (by omega), if_neg (by omega)]
@[simp] theorem Status.errCode_withSkv : Status.errCode (Status.withSkv st b) = Status.errCode st :=
  wordField_of_getLsbD_eq fun i _ => by
    rw [Status.withSkv, getLsbD_withStatusBit _ _ _ _ (by omega), if_neg (by omega)]
@[simp] theorem Status.lastOp_withBusy : Status.lastOp (Status.withBusy st b) = Status.lastOp st :=
  wordField_of_getLsbD_eq fun i _ => by
    rw [Status.withBusy, getLsbD_withStatusBit _ _ _ _ (by omega), if_neg (by omega)]
@[simp] theorem Status.lastOp_withDone : Status.lastOp (Status.withDone st b) = Status.lastOp st :=
  wordField_of_getLsbD_eq fun i _ => by
    rw [Status.withDone, getLsbD_withStatusBit _ _ _ _ (by omega), if_neg (by omega)]
@[simp] theorem Status.lastOp_withErr : Status.lastOp (Status.withErr st b) = Status.lastOp st :=
  wordField_of_getLsbD_eq fun i _ => by
    rw [Status.withErr, getLsbD_withStatusBit _ _ _ _ (by omega), if_neg (by omega)]
@[simp] theorem Status.lastOp_withLost : Status.lastOp (Status.withLost st b) = Status.lastOp st :=
  wordField_of_getLsbD_eq fun i _ => by
    rw [Status.withLost, getLsbD_withStatusBit _ _ _ _ (by omega), if_neg (by omega)]
@[simp] theorem Status.lastOp_withBbsv : Status.lastOp (Status.withBbsv st b) = Status.lastOp st :=
  wordField_of_getLsbD_eq fun i _ => by
    rw [Status.withBbsv, getLsbD_withStatusBit _ _ _ _ (by omega), if_neg (by omega)]
@[simp] theorem Status.lastOp_withSkv : Status.lastOp (Status.withSkv st b) = Status.lastOp st :=
  wordField_of_getLsbD_eq fun i _ => by
    rw [Status.withSkv, getLsbD_withStatusBit _ _ _ _ (by omega), if_neg (by omega)]
@[simp] theorem Status.errCode_withErrCode : Status.errCode (Status.withErrCode st c) = c :=
  wordField_withWordField _ _ _ (by omega)
@[simp] theorem Status.lastOp_withLastOp : Status.lastOp (Status.withLastOp st op) = op :=
  wordField_withWordField _ _ _ (by omega)
@[simp] theorem Status.errCode_withLastOp : Status.errCode (Status.withLastOp st op) = Status.errCode st :=
  wordField_of_getLsbD_eq fun i _ => by
    rw [Status.withLastOp, getLsbD_withWordField _ _ _ _ (by omega), if_neg (by omega)]
@[simp] theorem Status.lastOp_withErrCode : Status.lastOp (Status.withErrCode st c) = Status.lastOp st :=
  wordField_of_getLsbD_eq fun i _ => by
    rw [Status.withErrCode, getLsbD_withWordField _ _ _ _ (by omega), if_neg (by omega)]

end FieldAfterWrite

/-! ## The reserved bits (R22) -/

/-- The reserved bits are all 0 exactly when none of them is set. -/
theorem statusReserved_iff (st : Word) :
    st &&& statusReservedMask = 0#64 ↔ ∀ i, i < 64 → (i = 6 ∨ i = 7 ∨ (12 ≤ i ∧ i < 16) ∨ 24 ≤ i) → st.getLsbD i = false := by
  constructor
  · intro h i hi hr
    have hb := congrArg (fun x : Word => x.getLsbD i) h
    have hm : statusReservedMask.getLsbD i = true := by
      interval_cases i <;> first | rfl | (exfalso; omega)
    simpa [hm] using hb
  · intro h
    apply BitVec.eq_of_getLsbD_eq
    intro i hi
    by_cases hr : i = 6 ∨ i = 7 ∨ (12 ≤ i ∧ i < 16) ∨ 24 ≤ i
    · simp [h i hi hr]
    · have hm : statusReservedMask.getLsbD i = false := by
        interval_cases i <;> first | rfl | (exfalso; omega)
      simp [hm]

/-- A write of a STATUS bit that is no reserved bit keeps the reserved bits 0. -/
theorem withStatusBit_keeps_reserved (st : Word) (k : Nat) (b : Bool) (hk : k < 6) (h : st &&& statusReservedMask = 0#64) :
    withStatusBit st k b &&& statusReservedMask = 0#64 := by
  rw [statusReserved_iff] at h ⊢
  intro i hi hr
  rw [getLsbD_withStatusBit _ _ _ _ (by omega), if_neg (by omega)]
  exact h i hi hr

/-- A write of ERRCODE keeps the reserved bits 0. -/
theorem withErrCode_keeps_reserved (st : Word) (c : BitVec 4) (h : st &&& statusReservedMask = 0#64) :
    Status.withErrCode st c &&& statusReservedMask = 0#64 := by
  rw [statusReserved_iff] at h ⊢
  intro i hi hr
  rw [Status.withErrCode, getLsbD_withWordField _ _ _ _ (by omega), if_neg (by omega)]
  exact h i hi hr

/-- A write of LASTOP keeps the reserved bits 0. -/
theorem withLastOp_keeps_reserved (st : Word) (op : Byte) (h : st &&& statusReservedMask = 0#64) :
    Status.withLastOp st op &&& statusReservedMask = 0#64 := by
  rw [statusReserved_iff] at h ⊢
  intro i hi hr
  rw [Status.withLastOp, getLsbD_withWordField _ _ _ _ (by omega), if_neg (by omega)]
  exact h i hi hr

/-! ## The life-cycle updates as masks -/

/-- Two 64-bit words are equal when their 64 bits are. -/
theorem word_ext {x y : Word} (h : ∀ i, i < 64 → x.getLsbD i = y.getLsbD i) : x = y :=
  BitVec.eq_of_getLsbD_eq h

/-- R104 as a mask. -/
theorem completedStatus_eq (st : Word) : completedStatus st = okStatus st := by
  refine word_ext fun i hi => ?_
  simp only [completedStatus, Status.withDone, Status.withBusy, okStatus, BitVec.getLsbD_or, BitVec.getLsbD_and]
  rw [getLsbD_withStatusBit _ _ _ _ (by omega), getLsbD_withStatusBit _ _ _ _ (by omega)]
  interval_cases i <;> simp

/-- R105 as a mask. -/
theorem erroredStatus_eq (st : Word) (e : ErrCode) : erroredStatus st e = errStatus st e.code := by
  refine word_ext fun i hi => ?_
  rw [erroredStatus, completedStatus_eq]
  simp only [okStatus, errStatus, Status.withErrCode, Status.withErr, BitVec.getLsbD_or, BitVec.getLsbD_and,
    BitVec.getLsbD_shiftLeft, BitVec.getLsbD_setWidth]
  rw [getLsbD_withWordField _ _ _ _ (by omega), getLsbD_withStatusBit _ _ _ _ (by omega)]
  cases e <;> interval_cases i <;> simp [ErrCode.code]

/-- R101 as a mask. -/
theorem acceptedStatus_eq (st w : Word) : acceptedStatus st w = acceptStatus st w := by
  refine word_ext fun i hi => ?_
  simp only [acceptedStatus, acceptStatus, Status.withLastOp, Status.withBusy, Status.withDone, BitVec.getLsbD_or,
    BitVec.getLsbD_and, BitVec.getLsbD_shiftLeft]
  rw [getLsbD_withWordField _ _ _ _ (by omega), getLsbD_withStatusBit _ _ _ _ (by omega),
    getLsbD_withStatusBit _ _ _ _ (by omega)]
  interval_cases i <;> simp

/-- R31, R102 as a mask. -/
theorem withLost_eq (st : Word) : Status.withLost st true = lostStatus st := by
  refine word_ext fun i hi => ?_
  rw [Status.withLost, getLsbD_withStatusBit _ _ _ _ (by omega), lostStatus, BitVec.getLsbD_or]
  interval_cases i <;> simp

/-- STATUS after a completion that sets BBSV, as a mask (R104, R142). -/
theorem seededStatus_eq (st : Word) : completedStatus (Status.withBbsv st true) = okStatus st ||| 0x10#64 := by
  refine word_ext fun i hi => ?_
  simp only [completedStatus, okStatus, Status.withDone, Status.withBusy, Status.withBbsv]
  rw [getLsbD_withStatusBit _ _ _ _ (by omega), getLsbD_withStatusBit _ _ _ _ (by omega), getLsbD_withStatusBit _ _ _ _ (by omega),
    BitVec.getLsbD_or, BitVec.getLsbD_or, BitVec.getLsbD_and]
  interval_cases i <;> simp

/-- STATUS after a completion that sets SKV, as a mask (R104, R148, R177). -/
theorem keyedStatus_eq (st : Word) : completedStatus (Status.withSkv st true) = okStatus st ||| 0x20#64 := by
  refine word_ext fun i hi => ?_
  simp only [completedStatus, okStatus, Status.withDone, Status.withBusy, Status.withSkv]
  rw [getLsbD_withStatusBit _ _ _ _ (by omega), getLsbD_withStatusBit _ _ _ _ (by omega), getLsbD_withStatusBit _ _ _ _ (by omega),
    BitVec.getLsbD_or, BitVec.getLsbD_or, BitVec.getLsbD_and]
  interval_cases i <;> simp

/-- STATUS after a CLEAR, as a mask (R104, R111). -/
theorem clearedStatus_eq (st : Word) :
    completedStatus (Status.withLost (Status.withErrCode (Status.withErr st false) 0#4) false) =
      (st &&& 0xFFFFFFFFFFFFF0F0#64) ||| 0x2#64 := by
  refine word_ext fun i hi => ?_
  simp only [completedStatus, Status.withDone, Status.withBusy, Status.withLost, Status.withErr, Status.withErrCode]
  rw [getLsbD_withStatusBit _ _ _ _ (by omega), getLsbD_withStatusBit _ _ _ _ (by omega), getLsbD_withStatusBit _ _ _ _ (by omega),
    getLsbD_withWordField _ _ _ _ (by omega), getLsbD_withStatusBit _ _ _ _ (by omega), BitVec.getLsbD_or, BitVec.getLsbD_and]
  interval_cases i <;> simp

/-- Clearing SKV alone, as a mask (R27). -/
theorem withSkv_false_eq (st : Word) : Status.withSkv st false = st &&& 0xFFFFFFFFFFFFFFDF#64 := by
  refine word_ext fun i hi => ?_
  rw [Status.withSkv, getLsbD_withStatusBit _ _ _ _ (by omega), BitVec.getLsbD_and]
  interval_cases i <;> simp

end Sys2Proof.Machine
end

