-- ==== Sys2Proof/Laws/State.lean ====
section
/-! SUPPORT. Every field of State after every named update of it, so that no later proof unfolds a record update. -/

namespace Sys2Proof.Machine

variable (s : State)

/-! ## After using up a turn -/

@[simp] theorem State.turnTaken_opa : s.turnTaken.opa = s.opa := rfl
@[simp] theorem State.turnTaken_opb : s.turnTaken.opb = s.opb := rfl
@[simp] theorem State.turnTaken_opm : s.turnTaken.opm = s.opm := rfl
@[simp] theorem State.turnTaken_result : s.turnTaken.result = s.result := rfl
@[simp] theorem State.turnTaken_key : s.turnTaken.key = s.key := rfl
@[simp] theorem State.turnTaken_subkeys : s.turnTaken.subkeys = s.subkeys := rfl
@[simp] theorem State.turnTaken_bbsP : s.turnTaken.bbsP = s.bbsP := rfl
@[simp] theorem State.turnTaken_bbsQ : s.turnTaken.bbsQ = s.bbsQ := rfl
@[simp] theorem State.turnTaken_bbsN : s.turnTaken.bbsN = s.bbsN := rfl
@[simp] theorem State.turnTaken_bbsX : s.turnTaken.bbsX = s.bbsX := rfl
@[simp] theorem State.turnTaken_status : s.turnTaken.status = s.status := rfl
@[simp] theorem State.turnTaken_engine : s.turnTaken.engine = s.engine := rfl
@[simp] theorem State.turnTaken_tables : s.turnTaken.tables = s.tables := rfl
@[simp] theorem State.turnTaken_resetAsserted : s.turnTaken.resetAsserted = s.resetAsserted := rfl
@[simp] theorem State.turnTaken_program : s.turnTaken.program = s.program := rfl
@[simp] theorem State.turnTaken_observed : s.turnTaken.observed = s.observed := rfl
@[simp] theorem State.turnTaken_schedule : s.turnTaken.schedule = s.coming.tail := rfl
@[simp] theorem State.turnTaken_latencies : s.turnTaken.latencies = s.latencies := rfl
@[simp] theorem State.turnTaken_turns : s.turnTaken.turns = s.turns + 1 := rfl

/-! ## After the host's next action -/

@[simp] theorem State.advance_opa : s.advance.opa = s.opa := rfl
@[simp] theorem State.advance_opb : s.advance.opb = s.opb := rfl
@[simp] theorem State.advance_opm : s.advance.opm = s.opm := rfl
@[simp] theorem State.advance_result : s.advance.result = s.result := rfl
@[simp] theorem State.advance_key : s.advance.key = s.key := rfl
@[simp] theorem State.advance_subkeys : s.advance.subkeys = s.subkeys := rfl
@[simp] theorem State.advance_bbsP : s.advance.bbsP = s.bbsP := rfl
@[simp] theorem State.advance_bbsQ : s.advance.bbsQ = s.bbsQ := rfl
@[simp] theorem State.advance_bbsN : s.advance.bbsN = s.bbsN := rfl
@[simp] theorem State.advance_bbsX : s.advance.bbsX = s.bbsX := rfl
@[simp] theorem State.advance_status : s.advance.status = s.status := rfl
@[simp] theorem State.advance_engine : s.advance.engine = s.engine := rfl
@[simp] theorem State.advance_tables : s.advance.tables = s.tables := rfl
@[simp] theorem State.advance_resetAsserted : s.advance.resetAsserted = s.resetAsserted := rfl
@[simp] theorem State.advance_program : s.advance.program = s.program.tail := rfl
@[simp] theorem State.advance_observed : s.advance.observed = s.observed := rfl
@[simp] theorem State.advance_schedule : s.advance.schedule = s.schedule := rfl
@[simp] theorem State.advance_latencies : s.advance.latencies = s.latencies := rfl
@[simp] theorem State.advance_turns : s.advance.turns = s.turns := rfl

/-! ## After noting a read -/

@[simp] theorem State.observe_opa (off : Nat) (v : Word) : (s.observe off v).opa = s.opa := rfl
@[simp] theorem State.observe_opb (off : Nat) (v : Word) : (s.observe off v).opb = s.opb := rfl
@[simp] theorem State.observe_opm (off : Nat) (v : Word) : (s.observe off v).opm = s.opm := rfl
@[simp] theorem State.observe_result (off : Nat) (v : Word) : (s.observe off v).result = s.result := rfl
@[simp] theorem State.observe_key (off : Nat) (v : Word) : (s.observe off v).key = s.key := rfl
@[simp] theorem State.observe_subkeys (off : Nat) (v : Word) : (s.observe off v).subkeys = s.subkeys := rfl
@[simp] theorem State.observe_bbsP (off : Nat) (v : Word) : (s.observe off v).bbsP = s.bbsP := rfl
@[simp] theorem State.observe_bbsQ (off : Nat) (v : Word) : (s.observe off v).bbsQ = s.bbsQ := rfl
@[simp] theorem State.observe_bbsN (off : Nat) (v : Word) : (s.observe off v).bbsN = s.bbsN := rfl
@[simp] theorem State.observe_bbsX (off : Nat) (v : Word) : (s.observe off v).bbsX = s.bbsX := rfl
@[simp] theorem State.observe_status (off : Nat) (v : Word) : (s.observe off v).status = s.status := rfl
@[simp] theorem State.observe_engine (off : Nat) (v : Word) : (s.observe off v).engine = s.engine := rfl
@[simp] theorem State.observe_tables (off : Nat) (v : Word) : (s.observe off v).tables = s.tables := rfl
@[simp] theorem State.observe_resetAsserted (off : Nat) (v : Word) : (s.observe off v).resetAsserted = s.resetAsserted := rfl
@[simp] theorem State.observe_program (off : Nat) (v : Word) : (s.observe off v).program = s.program := rfl
@[simp] theorem State.observe_observed (off : Nat) (v : Word) : (s.observe off v).observed = s.observed ++ [⟨off, v⟩] := rfl
@[simp] theorem State.observe_schedule (off : Nat) (v : Word) : (s.observe off v).schedule = s.schedule := rfl
@[simp] theorem State.observe_latencies (off : Nat) (v : Word) : (s.observe off v).latencies = s.latencies := rfl
@[simp] theorem State.observe_turns (off : Nat) (v : Word) : (s.observe off v).turns = s.turns := rfl

/-! ## After completion (R104) -/

@[simp] theorem State.finish_opa : s.finish.opa = s.opa := rfl
@[simp] theorem State.finish_opb : s.finish.opb = s.opb := rfl
@[simp] theorem State.finish_opm : s.finish.opm = s.opm := rfl
@[simp] theorem State.finish_result : s.finish.result = s.result := rfl
@[simp] theorem State.finish_key : s.finish.key = s.key := rfl
@[simp] theorem State.finish_subkeys : s.finish.subkeys = s.subkeys := rfl
@[simp] theorem State.finish_bbsP : s.finish.bbsP = s.bbsP := rfl
@[simp] theorem State.finish_bbsQ : s.finish.bbsQ = s.bbsQ := rfl
@[simp] theorem State.finish_bbsN : s.finish.bbsN = s.bbsN := rfl
@[simp] theorem State.finish_bbsX : s.finish.bbsX = s.bbsX := rfl
@[simp] theorem State.finish_status : s.finish.status = completedStatus s.status := rfl
@[simp] theorem State.finish_engine : s.finish.engine = .idle := rfl
@[simp] theorem State.finish_tables : s.finish.tables = s.tables := rfl
@[simp] theorem State.finish_resetAsserted : s.finish.resetAsserted = s.resetAsserted := rfl
@[simp] theorem State.finish_program : s.finish.program = s.program := rfl
@[simp] theorem State.finish_observed : s.finish.observed = s.observed := rfl
@[simp] theorem State.finish_schedule : s.finish.schedule = s.schedule := rfl
@[simp] theorem State.finish_latencies : s.finish.latencies = s.latencies := rfl
@[simp] theorem State.finish_turns : s.finish.turns = s.turns := rfl

/-! ## After taking an error (R105, R201) -/

@[simp] theorem State.takeError_opa (e : ErrCode) : (s.takeError e).opa = s.opa := rfl
@[simp] theorem State.takeError_opb (e : ErrCode) : (s.takeError e).opb = s.opb := rfl
@[simp] theorem State.takeError_opm (e : ErrCode) : (s.takeError e).opm = s.opm := rfl
@[simp] theorem State.takeError_result (e : ErrCode) : (s.takeError e).result = s.result := rfl
@[simp] theorem State.takeError_key (e : ErrCode) : (s.takeError e).key = s.key := rfl
@[simp] theorem State.takeError_subkeys (e : ErrCode) : (s.takeError e).subkeys = s.subkeys := rfl
@[simp] theorem State.takeError_bbsP (e : ErrCode) : (s.takeError e).bbsP = s.bbsP := rfl
@[simp] theorem State.takeError_bbsQ (e : ErrCode) : (s.takeError e).bbsQ = s.bbsQ := rfl
@[simp] theorem State.takeError_bbsN (e : ErrCode) : (s.takeError e).bbsN = s.bbsN := rfl
@[simp] theorem State.takeError_bbsX (e : ErrCode) : (s.takeError e).bbsX = s.bbsX := rfl
@[simp] theorem State.takeError_status (e : ErrCode) : (s.takeError e).status = erroredStatus s.status e := rfl
@[simp] theorem State.takeError_engine (e : ErrCode) : (s.takeError e).engine = .idle := rfl
@[simp] theorem State.takeError_tables (e : ErrCode) : (s.takeError e).tables = s.tables := rfl
@[simp] theorem State.takeError_resetAsserted (e : ErrCode) : (s.takeError e).resetAsserted = s.resetAsserted := rfl
@[simp] theorem State.takeError_program (e : ErrCode) : (s.takeError e).program = s.program := rfl
@[simp] theorem State.takeError_observed (e : ErrCode) : (s.takeError e).observed = s.observed := rfl
@[simp] theorem State.takeError_schedule (e : ErrCode) : (s.takeError e).schedule = s.schedule := rfl
@[simp] theorem State.takeError_latencies (e : ErrCode) : (s.takeError e).latencies = s.latencies := rfl
@[simp] theorem State.takeError_turns (e : ErrCode) : (s.takeError e).turns = s.turns := rfl

/-! ## After dropping a write (R31, R102) -/

@[simp] theorem State.lose_opa : s.lose.opa = s.opa := rfl
@[simp] theorem State.lose_opb : s.lose.opb = s.opb := rfl
@[simp] theorem State.lose_opm : s.lose.opm = s.opm := rfl
@[simp] theorem State.lose_result : s.lose.result = s.result := rfl
@[simp] theorem State.lose_key : s.lose.key = s.key := rfl
@[simp] theorem State.lose_subkeys : s.lose.subkeys = s.subkeys := rfl
@[simp] theorem State.lose_bbsP : s.lose.bbsP = s.bbsP := rfl
@[simp] theorem State.lose_bbsQ : s.lose.bbsQ = s.bbsQ := rfl
@[simp] theorem State.lose_bbsN : s.lose.bbsN = s.bbsN := rfl
@[simp] theorem State.lose_bbsX : s.lose.bbsX = s.bbsX := rfl
@[simp] theorem State.lose_status : s.lose.status = Status.withLost s.status true := rfl
@[simp] theorem State.lose_engine : s.lose.engine = s.engine := rfl
@[simp] theorem State.lose_tables : s.lose.tables = s.tables := rfl
@[simp] theorem State.lose_resetAsserted : s.lose.resetAsserted = s.resetAsserted := rfl
@[simp] theorem State.lose_program : s.lose.program = s.program := rfl
@[simp] theorem State.lose_observed : s.lose.observed = s.observed := rfl
@[simp] theorem State.lose_schedule : s.lose.schedule = s.schedule := rfl
@[simp] theorem State.lose_latencies : s.lose.latencies = s.latencies := rfl
@[simp] theorem State.lose_turns : s.lose.turns = s.turns := rfl

/-! ## After acceptance (R101) -/

@[simp] theorem State.accept_opa (w : Word) : (s.accept w).opa = s.opa := rfl
@[simp] theorem State.accept_opb (w : Word) : (s.accept w).opb = s.opb := rfl
@[simp] theorem State.accept_opm (w : Word) : (s.accept w).opm = s.opm := rfl
@[simp] theorem State.accept_result (w : Word) : (s.accept w).result = s.result := rfl
@[simp] theorem State.accept_key (w : Word) : (s.accept w).key = s.key := rfl
@[simp] theorem State.accept_subkeys (w : Word) : (s.accept w).subkeys = s.subkeys := rfl
@[simp] theorem State.accept_bbsP (w : Word) : (s.accept w).bbsP = s.bbsP := rfl
@[simp] theorem State.accept_bbsQ (w : Word) : (s.accept w).bbsQ = s.bbsQ := rfl
@[simp] theorem State.accept_bbsN (w : Word) : (s.accept w).bbsN = s.bbsN := rfl
@[simp] theorem State.accept_bbsX (w : Word) : (s.accept w).bbsX = s.bbsX := rfl
@[simp] theorem State.accept_status (w : Word) : (s.accept w).status = acceptedStatus s.status w := rfl
@[simp] theorem State.accept_engine (w : Word) : (s.accept w).engine = .busy w (s.nextLatency w) := rfl
@[simp] theorem State.accept_tables (w : Word) : (s.accept w).tables = s.tables := rfl
@[simp] theorem State.accept_resetAsserted (w : Word) : (s.accept w).resetAsserted = s.resetAsserted := rfl
@[simp] theorem State.accept_program (w : Word) : (s.accept w).program = s.program := rfl
@[simp] theorem State.accept_observed (w : Word) : (s.accept w).observed = s.observed := rfl
@[simp] theorem State.accept_schedule (w : Word) : (s.accept w).schedule = s.schedule := rfl
@[simp] theorem State.accept_latencies (w : Word) : (s.accept w).latencies = s.latencies.tail := rfl
@[simp] theorem State.accept_turns (w : Word) : (s.accept w).turns = s.turns := rfl

/-! ## After the reset state (R230, R231) -/

@[simp] theorem State.resetBlock_opa : s.resetBlock.opa = 0#64 := rfl
@[simp] theorem State.resetBlock_opb : s.resetBlock.opb = 0#64 := rfl
@[simp] theorem State.resetBlock_opm : s.resetBlock.opm = 0#64 := rfl
@[simp] theorem State.resetBlock_result : s.resetBlock.result = 0#64 := rfl
@[simp] theorem State.resetBlock_key : s.resetBlock.key = 0#64 := rfl
@[simp] theorem State.resetBlock_subkeys : s.resetBlock.subkeys = 0#64 := rfl
@[simp] theorem State.resetBlock_bbsP : s.resetBlock.bbsP = 0#64 := rfl
@[simp] theorem State.resetBlock_bbsQ : s.resetBlock.bbsQ = 0#64 := rfl
@[simp] theorem State.resetBlock_bbsN : s.resetBlock.bbsN = 0#64 := rfl
@[simp] theorem State.resetBlock_bbsX : s.resetBlock.bbsX = 0#64 := rfl
@[simp] theorem State.resetBlock_status : s.resetBlock.status = 0#64 := rfl
@[simp] theorem State.resetBlock_engine : s.resetBlock.engine = .idle := rfl
@[simp] theorem State.resetBlock_tables : s.resetBlock.tables = s.tables := rfl
@[simp] theorem State.resetBlock_resetAsserted : s.resetBlock.resetAsserted = s.resetAsserted := rfl
@[simp] theorem State.resetBlock_program : s.resetBlock.program = s.program := rfl
@[simp] theorem State.resetBlock_observed : s.resetBlock.observed = s.observed := rfl
@[simp] theorem State.resetBlock_schedule : s.resetBlock.schedule = s.schedule := rfl
@[simp] theorem State.resetBlock_latencies : s.resetBlock.latencies = s.latencies := rfl
@[simp] theorem State.resetBlock_turns : s.resetBlock.turns = s.turns := rfl

/-! ## After a word started in the engine -/

@[simp] theorem State.startWord_opa (w : Word) : (s.startWord w).opa = s.opa := rfl
@[simp] theorem State.startWord_opb (w : Word) : (s.startWord w).opb = s.opb := rfl
@[simp] theorem State.startWord_opm (w : Word) : (s.startWord w).opm = s.opm := rfl
@[simp] theorem State.startWord_result (w : Word) : (s.startWord w).result = s.result := rfl
@[simp] theorem State.startWord_key (w : Word) : (s.startWord w).key = s.key := rfl
@[simp] theorem State.startWord_subkeys (w : Word) : (s.startWord w).subkeys = s.subkeys := rfl
@[simp] theorem State.startWord_bbsP (w : Word) : (s.startWord w).bbsP = s.bbsP := rfl
@[simp] theorem State.startWord_bbsQ (w : Word) : (s.startWord w).bbsQ = s.bbsQ := rfl
@[simp] theorem State.startWord_bbsN (w : Word) : (s.startWord w).bbsN = s.bbsN := rfl
@[simp] theorem State.startWord_bbsX (w : Word) : (s.startWord w).bbsX = s.bbsX := rfl
@[simp] theorem State.startWord_status (w : Word) : (s.startWord w).status = acceptedStatus s.status w := rfl
@[simp] theorem State.startWord_engine (w : Word) : (s.startWord w).engine = .busy w 1 := rfl
@[simp] theorem State.startWord_tables (w : Word) : (s.startWord w).tables = s.tables := rfl
@[simp] theorem State.startWord_resetAsserted (w : Word) : (s.startWord w).resetAsserted = false := rfl
@[simp] theorem State.startWord_program (w : Word) : (s.startWord w).program = s.program := rfl
@[simp] theorem State.startWord_observed (w : Word) : (s.startWord w).observed = s.observed := rfl
@[simp] theorem State.startWord_schedule (w : Word) : (s.startWord w).schedule = .engine :: s.schedule := rfl
@[simp] theorem State.startWord_latencies (w : Word) : (s.startWord w).latencies = s.latencies := rfl
@[simp] theorem State.startWord_turns (w : Word) : (s.startWord w).turns = s.turns := rfl

/-! ## Commit sets (R104) -/

@[simp] theorem State.commit_nil : s.commit [] = s := rfl
@[simp] theorem State.commit_cons (w : RegWrite) (ws : List RegWrite) : s.commit (w :: ws) = (RegWrite.apply s w).commit ws := rfl

@[simp] theorem RegWrite.apply_result (v : Nat) : RegWrite.apply s (.result v) = { s with result := toWord v } := rfl
@[simp] theorem RegWrite.apply_key (v : Nat) : RegWrite.apply s (.key v) = { s with key := toWord v } := rfl
@[simp] theorem RegWrite.apply_subkeys (v : Nat) : RegWrite.apply s (.subkeys v) = { s with subkeys := toWord v } := rfl
@[simp] theorem RegWrite.apply_bbsP (v : Nat) : RegWrite.apply s (.bbsP v) = { s with bbsP := toWord v } := rfl
@[simp] theorem RegWrite.apply_bbsQ (v : Nat) : RegWrite.apply s (.bbsQ v) = { s with bbsQ := toWord v } := rfl
@[simp] theorem RegWrite.apply_bbsN (v : Nat) : RegWrite.apply s (.bbsN v) = { s with bbsN := toWord v } := rfl
@[simp] theorem RegWrite.apply_bbsX (v : Nat) : RegWrite.apply s (.bbsX v) = { s with bbsX := toWord v } := rfl
@[simp] theorem RegWrite.apply_bbsv (b : Bool) :
    RegWrite.apply s (.bbsv b) = { s with status := Status.withBbsv s.status b } := rfl
@[simp] theorem RegWrite.apply_skv (b : Bool) :
    RegWrite.apply s (.skv b) = { s with status := Status.withSkv s.status b } := rfl
@[simp] theorem RegWrite.apply_err (b : Bool) :
    RegWrite.apply s (.err b) = { s with status := Status.withErr s.status b } := rfl
@[simp] theorem RegWrite.apply_errCode (c : BitVec 4) :
    RegWrite.apply s (.errCode c) = { s with status := Status.withErrCode s.status c } := rfl
@[simp] theorem RegWrite.apply_lost (b : Bool) :
    RegWrite.apply s (.lost b) = { s with status := Status.withLost s.status b } := rfl

/-! ## The model's choice of turn -/

theorem State.coming_of_cons {t : Turn} {ts : List Turn} (h : s.schedule = t :: ts) : s.coming = t :: ts := by
  rw [State.coming, h]
theorem State.coming_of_nil (h : s.schedule = []) : s.coming = Config.freeTurns s.turns ++ [.engine] := by
  rw [State.coming, h]
theorem State.coming_ne_nil : s.coming ≠ [] := by
  cases h : s.schedule with
  | nil => rw [State.coming_of_nil s h]; simp
  | cons t ts => rw [State.coming_of_cons s h]; simp
@[simp] theorem State.nextTurn_of_cons {t : Turn} {ts : List Turn} (h : s.schedule = t :: ts) : s.nextTurn = t := by
  rw [State.nextTurn, State.coming_of_cons s h]; rfl
@[simp] theorem State.turnTaken_of_cons {t : Turn} {ts : List Turn} (h : s.schedule = t :: ts) :
    s.turnTaken = { s with schedule := ts, turns := s.turns + 1 } := by
  rw [State.turnTaken, State.coming_of_cons s h]; rfl
/-- The turn taken and those still to come. -/
theorem State.coming_eq : s.coming = s.nextTurn :: s.turnTaken.schedule := by
  rw [State.turnTaken_schedule, State.nextTurn]
  cases h : s.coming with
  | nil => exact absurd h s.coming_ne_nil
  | cons t ts => rfl

end Sys2Proof.Machine
end

