-- ==== Sys2Proof/Laws/Ops.lean ====
section
/-! SUPPORT. What each meaning can answer: its commit set or its error, one lemma per command (R103 to R105), and what a completion
leaves alone. -/

namespace Sys2Proof.Machine

/-- An error completion, in the terms claims use (R105, R201). -/
theorem takeError_eq (s : State) (e : ErrCode) : s.takeError e = s.failed e.code := by
  rw [State.takeError, State.failed, erroredStatus_eq]

theorem completeBy_ok (s : State) (ws : List RegWrite) : completeBy s (.ok ws) = .next (s.complete ws) := rfl
theorem completeBy_error (s : State) (e : ErrCode) : completeBy s (.error e) = .next (s.takeError e) := rfl

/-- Both completions at once: every command has a next state (R103). -/
theorem completeBy_cases (s : State) (x : Except ErrCode (List RegWrite)) :
    (∃ ws, x = .ok ws ∧ completeBy s x = .next (s.complete ws)) ∨ (∃ e, x = .error e ∧ completeBy s x = .next (s.takeError e)) := by
  cases x with
  | ok ws => exact .inl ⟨ws, rfl, rfl⟩
  | error e => exact .inr ⟨e, rfl, rfl⟩

/-- No commit set touches the host agent, the reset input, the tables, the operand registers or the model's own turns (R13, R21, R29). -/
theorem commit_keeps (s : State) (ws : List RegWrite) :
    (s.commit ws).program = s.program ∧ (s.commit ws).observed = s.observed ∧ (s.commit ws).resetAsserted = s.resetAsserted ∧
      (s.commit ws).tables = s.tables ∧ (s.commit ws).schedule = s.schedule ∧ (s.commit ws).latencies = s.latencies ∧
      (s.commit ws).turns = s.turns ∧ (s.commit ws).opa = s.opa ∧ (s.commit ws).opb = s.opb ∧ (s.commit ws).opm = s.opm := by
  induction ws generalizing s with
  | nil => simp [State.commit]
  | cons w ws ih =>
    have h : s.commit (w :: ws) = (RegWrite.apply s w).commit ws := rfl
    rw [h]
    have := ih (RegWrite.apply s w)
    cases w <;> exact this

/-! ## The state after each shape of commit set

Values and STATUS words as claims write them; every field not named is the field of `s` (R104). -/

/-- A commit set of nothing: NOP. -/
theorem complete_nil (s : State) : s.complete [] = { s with status := okStatus s.status, engine := .idle } := by
  simp only [State.complete, State.commit, List.foldl, State.finish, completedStatus_eq]

/-- A commit set of RESULT alone: MODEXP, LEGENDRE, ENC, DEC, FROUND, FFUNC, PERM. -/
theorem complete_result (s : State) (v : Nat) :
    s.complete [.result v] = { s with result := BitVec.ofNat 64 v, status := okStatus s.status, engine := .idle } := by
  simp only [State.complete, State.commit, List.foldl, RegWrite.apply, State.finish, toWord, completedStatus_eq]

/-- The commit set of CLEAR. -/
theorem complete_clear (s : State) :
    s.complete clearCommit = { s with status := (s.status &&& 0xFFFFFFFFFFFFF0F0#64) ||| 0x2#64, engine := .idle } := by
  simp only [clearCommit, State.complete, State.commit, List.foldl, RegWrite.apply, State.finish, clearedStatus_eq]

/-- The commit set of BBS_SEED. -/
theorem complete_seed (s : State) (p q n x r : Nat) :
    s.complete [.bbsP p, .bbsQ q, .bbsN n, .bbsX x, .bbsv true, .result r] =
      { s with
        bbsP := BitVec.ofNat 64 p
        bbsQ := BitVec.ofNat 64 q
        bbsN := BitVec.ofNat 64 n
        bbsX := BitVec.ofNat 64 x
        result := BitVec.ofNat 64 r
        status := okStatus s.status ||| 0x10#64
        engine := .idle } := by
  simp only [State.complete, State.commit, List.foldl, RegWrite.apply, State.finish, toWord, seededStatus_eq]

/-- The commit set of BBS_NEXT. -/
theorem complete_next (s : State) (x r : Nat) :
    s.complete [.bbsX x, .result r] =
      { s with bbsX := BitVec.ofNat 64 x, result := BitVec.ofNat 64 r, status := okStatus s.status, engine := .idle } := by
  simp only [State.complete, State.commit, List.foldl, RegWrite.apply, State.finish, toWord, completedStatus_eq]

/-- The commit set of KEYGEN. -/
theorem complete_keygen (s : State) (x k sk r : Nat) :
    s.complete [.bbsX x, .key k, .subkeys sk, .skv true, .result r] =
      { s with
        bbsX := BitVec.ofNat 64 x
        key := BitVec.ofNat 64 k
        subkeys := BitVec.ofNat 64 sk
        result := BitVec.ofNat 64 r
        status := okStatus s.status ||| 0x20#64
        engine := .idle } := by
  simp only [State.complete, State.commit, List.foldl, RegWrite.apply, State.finish, toWord, keyedStatus_eq]

/-- The commit set of KEYSCHED. -/
theorem complete_keysched (s : State) (sk r : Nat) :
    s.complete [.subkeys sk, .skv true, .result r] =
      { s with
        subkeys := BitVec.ofNat 64 sk
        result := BitVec.ofNat 64 r
        status := okStatus s.status ||| 0x20#64
        engine := .idle } := by
  simp only [State.complete, State.commit, List.foldl, RegWrite.apply, State.finish, toWord, keyedStatus_eq]

/-! ## One lemma per command -/

theorem execNop_spec (s : State) : execNop s = .next (s.complete []) := rfl

theorem execClear_spec (s : State) : execClear s = .next (s.complete clearCommit) := rfl

theorem execModexp_spec (s : State) :
    (s.m = 0 ∧ execModexp s = .next (s.takeError .modulus)) ∨
      (s.m ≠ 0 ∧ execModexp s = .next (s.complete [.result (modPow s.a s.b s.m)])) := by
  by_cases h : s.m = 0
  · exact .inl ⟨h, by simp [execModexp, h, completeBy]⟩
  · exact .inr ⟨h, by simp [execModexp, h, completeBy]⟩

theorem execLegendre_spec (s : State) :
    ((s.m < 3 ∨ s.m % 2 = 0) ∧ execLegendre s = .next (s.takeError .modulus)) ∨
      (¬ (s.m < 3 ∨ s.m % 2 = 0) ∧
        ((eulerValue s.a s.m = 0 ∧ execLegendre s = .next (s.complete [.result 0])) ∨
          (eulerValue s.a s.m = 1 ∧ execLegendre s = .next (s.complete [.result 1])) ∨
          (eulerValue s.a s.m = s.m - 1 ∧ eulerValue s.a s.m ≠ 0 ∧ eulerValue s.a s.m ≠ 1 ∧
            execLegendre s = .next (s.complete [.result 0xFFFFFFFFFFFFFFFF])) ∨
          (eulerValue s.a s.m ≠ 0 ∧ eulerValue s.a s.m ≠ 1 ∧ eulerValue s.a s.m ≠ s.m - 1 ∧
            execLegendre s = .next (s.takeError .notPrime)))) := by
  by_cases h : s.m < 3 ∨ s.m % 2 = 0
  · exact .inl ⟨h, by rw [execLegendre, if_pos h, completeBy]⟩
  · refine .inr ⟨h, ?_⟩
    by_cases h0 : eulerValue s.a s.m = 0
    · exact .inl ⟨h0, by rw [execLegendre, if_neg h, if_pos h0, completeBy]⟩
    · by_cases h1 : eulerValue s.a s.m = 1
      · exact .inr (.inl ⟨h1, by rw [execLegendre, if_neg h, if_neg h0, if_pos h1, completeBy]⟩)
      · by_cases h2 : eulerValue s.a s.m = s.m - 1
        · exact .inr (.inr (.inl ⟨h2, h0, h1, by rw [execLegendre, if_neg h, if_neg h0, if_neg h1, if_pos h2, completeBy]⟩))
        · exact .inr (.inr (.inr ⟨h0, h1, h2, by
            rw [execLegendre, if_neg h, if_neg h0, if_neg h1, if_neg h2, completeBy]⟩))

/-- The commit set of a successful BBS_SEED (R142). -/
theorem execBbsSeed_spec (s : State) :
    ((s.b % 4 ≠ 3 ∨ s.m % 4 ≠ 3 ∨ s.b = s.m ∨ s.a % s.b = 0 ∨ s.a % s.m = 0) ∧
        execBbsSeed s = .next (s.takeError .bbsParam)) ∨
      (s.b % 4 = 3 ∧ s.m % 4 = 3 ∧ s.b ≠ s.m ∧ s.a % s.b ≠ 0 ∧ s.a % s.m ≠ 0 ∧
        ((2 ^ 64 ≤ s.b * s.m ∧ execBbsSeed s = .next (s.takeError .bbsRange)) ∨
          (s.b * s.m < 2 ^ 64 ∧ execBbsSeed s = .next (s.complete
            [.bbsP s.b, .bbsQ s.m, .bbsN (s.b * s.m), .bbsX (s.a * s.a % (s.b * s.m)), .bbsv true, .result (s.b * s.m)])))) := by
  by_cases h1 : s.b % 4 ≠ 3 ∨ s.m % 4 ≠ 3
  · exact .inl ⟨by tauto, by rw [execBbsSeed, if_pos h1, completeBy]⟩
  by_cases h2 : s.b = s.m
  · exact .inl ⟨by tauto, by rw [execBbsSeed, if_neg h1, if_pos h2, completeBy]⟩
  by_cases h3 : s.a % s.b = 0 ∨ s.a % s.m = 0
  · exact .inl ⟨by tauto, by rw [execBbsSeed, if_neg h1, if_neg h2, if_pos h3, completeBy]⟩
  refine .inr ⟨by tauto, by tauto, h2, by tauto, by tauto, ?_⟩
  by_cases h4 : 2 ^ 64 ≤ s.b * s.m
  · exact .inl ⟨h4, by rw [execBbsSeed, if_neg h1, if_neg h2, if_neg h3, if_pos h4, completeBy]⟩
  · exact .inr ⟨by omega, by rw [execBbsSeed, if_neg h1, if_neg h2, if_neg h3, if_neg h4, completeBy]⟩

theorem execBbsNext_spec (c : Nat) (s : State) :
    (s.bbsv = false ∧ execBbsNext c s = .next (s.takeError .noSeed)) ∨
      (s.bbsv = true ∧ 64 < c ∧ execBbsNext c s = .next (s.takeError .count)) ∨
      (s.bbsv = true ∧ c ≤ 64 ∧ execBbsNext c s = .next (s.complete
        [.bbsX (bbsRun s.n c s.x 0).1, .result (bbsRun s.n c s.x 0).2])) := by
  cases h : s.bbsv with
  | false => exact .inl ⟨rfl, by rw [execBbsNext, if_pos h, completeBy]⟩
  | true =>
    by_cases hc : bbsMaxCount < c
    · exact .inr (.inl ⟨rfl, hc, by rw [execBbsNext, if_neg (by simp [h]), if_pos hc, completeBy]⟩)
    · exact .inr (.inr ⟨rfl, Nat.not_lt.mp hc, by rw [execBbsNext, if_neg (by simp [h]), if_neg hc, completeBy]⟩)

theorem execKeygen_spec (s : State) :
    (s.bbsv = false ∧ execKeygen s = .next (s.takeError .noSeed)) ∨
      (s.bbsv = true ∧ execKeygen s = .next (s.complete
        [.bbsX (bbsRun s.n 10 s.x 0).1, .key (bbsRun s.n 10 s.x 0).2,
          .subkeys (packSubkeys (schedule s.tables (bbsRun s.n 10 s.x 0).2)), .skv true,
          .result (bbsRun s.n 10 s.x 0).2])) := by
  cases h : s.bbsv with
  | false => exact .inl ⟨rfl, by rw [execKeygen, if_pos h, completeBy]⟩
  | true => exact .inr ⟨rfl, by rw [execKeygen, if_neg (by simp [h]), completeBy]; rfl⟩

/-- The width check as a bound (R85). -/
theorem fits_iff (v width : Nat) : fits v width = true ↔ v < 2 ^ width := by simp [fits]

theorem execKeysched_spec (s : State) :
    (2 ^ 10 ≤ s.k ∧ execKeysched s = .next (s.takeError .width)) ∨
      (s.k < 2 ^ 10 ∧ execKeysched s = .next (s.complete
        [.subkeys (packSubkeys (schedule s.tables s.k)), .skv true, .result (packSubkeys (schedule s.tables s.k))])) := by
  by_cases h : fits s.k keyW = true
  · exact .inr ⟨(fits_iff _ _).mp h, by rw [execKeysched, if_pos h, completeBy]⟩
  · exact .inl ⟨Nat.not_lt.mp fun hk => h ((fits_iff _ _).mpr hk), by rw [execKeysched, if_neg h, completeBy]⟩

theorem execEnc_spec (s : State) :
    (s.skv = false ∧ execEnc s = .next (s.takeError .noKey)) ∨
      (s.skv = true ∧ 2 ^ 8 ≤ s.a ∧ execEnc s = .next (s.takeError .width)) ∨
      (s.skv = true ∧ s.a < 2 ^ 8 ∧ execEnc s = .next (s.complete [.result (encBlock s.tables s.a s.sk1 s.sk2)])) := by
  cases hk : s.skv with
  | false => exact .inl ⟨rfl, by rw [execEnc, if_pos hk, completeBy]⟩
  | true =>
    by_cases h : fits s.a blockW = true
    · exact .inr (.inr ⟨rfl, (fits_iff _ _).mp h, by rw [execEnc, if_neg (by simp [hk]), if_pos h, completeBy]⟩)
    · exact .inr (.inl ⟨rfl, Nat.not_lt.mp fun ha => h ((fits_iff _ _).mpr ha), by
        rw [execEnc, if_neg (by simp [hk]), if_neg h, completeBy]⟩)

theorem execDec_spec (s : State) :
    (s.skv = false ∧ execDec s = .next (s.takeError .noKey)) ∨
      (s.skv = true ∧ 2 ^ 8 ≤ s.a ∧ execDec s = .next (s.takeError .width)) ∨
      (s.skv = true ∧ s.a < 2 ^ 8 ∧ execDec s = .next (s.complete [.result (decBlock s.tables s.a s.sk1 s.sk2)])) := by
  cases hk : s.skv with
  | false => exact .inl ⟨rfl, by rw [execDec, if_pos hk, completeBy]⟩
  | true =>
    by_cases h : fits s.a blockW = true
    · exact .inr (.inr ⟨rfl, (fits_iff _ _).mp h, by rw [execDec, if_neg (by simp [hk]), if_pos h, completeBy]⟩)
    · exact .inr (.inl ⟨rfl, Nat.not_lt.mp fun ha => h ((fits_iff _ _).mpr ha), by
        rw [execDec, if_neg (by simp [hk]), if_neg h, completeBy]⟩)

theorem execFround_spec (s : State) :
    ((2 ^ 8 ≤ s.a ∨ 2 ^ 8 ≤ s.b) ∧ execFround s = .next (s.takeError .width)) ∨
      (s.a < 2 ^ 8 ∧ s.b < 2 ^ 8 ∧ execFround s = .next (s.complete [.result (feistelRound s.tables s.a s.b)])) := by
  by_cases h : (fits s.a blockW && fits s.b subkeyW) = true
  · have h' := h
    rw [Bool.and_eq_true, fits_iff, fits_iff] at h'
    exact .inr ⟨h'.1, h'.2, by rw [execFround, if_pos h, completeBy]⟩
  · refine .inl ⟨?_, by rw [execFround, if_neg h, completeBy]⟩
    rw [Bool.and_eq_true, fits_iff, fits_iff] at h
    simp only [blockW, subkeyW] at h
    omega

theorem execFfunc_spec (s : State) :
    ((2 ^ 4 ≤ s.a ∨ 2 ^ 8 ≤ s.b) ∧ execFfunc s = .next (s.takeError .width)) ∨
      (s.a < 2 ^ 4 ∧ s.b < 2 ^ 8 ∧ execFfunc s = .next (s.complete [.result (roundFunction s.tables s.a s.b)])) := by
  by_cases h : (fits s.a halfW && fits s.b subkeyW) = true
  · have h' := h
    rw [Bool.and_eq_true, fits_iff, fits_iff] at h'
    exact .inr ⟨h'.1, h'.2, by rw [execFfunc, if_pos h, completeBy]⟩
  · refine .inl ⟨?_, by rw [execFfunc, if_neg h, completeBy]⟩
    rw [Bool.and_eq_true, fits_iff, fits_iff] at h
    simp only [halfW, subkeyW] at h
    omega

/-- A selector names a table exactly when it is at most 8 (R169). -/
theorem ofSelector_none_iff (sel : Nat) : MuTable.ofSelector sel = none ↔ 8 < sel := by
  rcases Nat.lt_or_ge 8 sel with h | h
  · obtain ⟨n, rfl⟩ := Nat.exists_eq_add_of_le h
    simp [show 8 + 1 + n = n + 9 by omega, MuTable.ofSelector]
  · interval_cases sel <;> simp [MuTable.ofSelector]

/-- The selector of a table names it (R169). -/
@[simp] theorem ofSelector_selector (t : MuTable) : MuTable.ofSelector t.selector = some t := by cases t <;> rfl

theorem execPerm_spec (sel : Nat) (s : State) :
    (8 < sel ∧ execPerm sel s = .next (s.takeError .permSel)) ∨
      (∃ t, MuTable.ofSelector sel = some t ∧
        ((2 ^ t.inputWidth ≤ s.a ∧ execPerm sel s = .next (s.takeError .width)) ∨
          (s.a < 2 ^ t.inputWidth ∧
            execPerm sel s = .next (s.complete [.result (perm (t.entries s.tables) t.inputWidth s.a)])))) := by
  cases hsel : MuTable.ofSelector sel with
  | none => exact .inl ⟨(ofSelector_none_iff sel).mp hsel, by simp [execPerm, hsel, completeBy]⟩
  | some t =>
    refine .inr ⟨t, rfl, ?_⟩
    by_cases h : fits s.a t.inputWidth = true
    · exact .inr ⟨(fits_iff _ _).mp h, by simp [execPerm, hsel, h, completeBy]⟩
    · refine .inl ⟨Nat.not_lt.mp fun ha => h ((fits_iff _ _).mpr ha), ?_⟩
      simp [execPerm, hsel, h, completeBy]

/-! ## The register window -/

/-- A slot number and a register agree on the offset (R20). -/
@[simp] theorem ofSlot_offset (r : Reg) : Reg.ofSlot (r.offset / 8) = some r := by cases r <;> rfl

/-- A supported access has no problem (R61, R63, R232). -/
theorem accessProblem_none_iff (s : State) (off width : Nat) :
    s.accessProblem off width = none ↔ s.resetAsserted = false ∧ off < 0x100 ∧ width = 8 ∧ off % 8 = 0 := by
  unfold State.accessProblem
  split_ifs with h1 h2 h3
  · simp [h1]
  · simp; omega
  · simp; omega
  · simp only [not_or, not_not] at h3
    simp only [true_iff]
    exact ⟨by simpa using h1, by omega, h3.1, h3.2⟩

/-- An access problem is a fault or a refusal, never a next state. -/
theorem accessProblem_stops {s t : State} {off width : Nat} {o : Outcome} (h : s.accessProblem off width = some o) : o ≠ .next t := by
  unfold State.accessProblem at h
  split_ifs at h <;> cases h <;> simp

end Sys2Proof.Machine
end

