-- ==== Sys2Proof/Laws/PerInstr.lean ====
section
/-! SUPPORT. Families of statements about the commands as syntax, one lemma per constructor (LAWS.json). -/

namespace Sys2Proof.Laws

/-- `EncodedFields`: the command word of a well-formed command carries its opcode in OP, its argument in ARG and 0 in RSVD (R80, R82). -/
def EncodedFields.Statement (i : Instr) : Prop :=
  i.WellFormed → (cmdOp (encode i)).toNat = i.opcode ∧ cmdArg (encode i) = i.argument ∧ cmdRsvd (encode i) = 0#48

/-- The fields of any word `arg·0x100 + op` with an 8-bit `op` and an 8-bit `arg` (R80, R88). -/
theorem fields_of_arg_op (arg op : Nat) (ha : arg < 2 ^ 8) (ho : op < 2 ^ 8) :
    (cmdOp (BitVec.ofNat 64 (arg * 0x100 + op))).toNat = op ∧ cmdArg (BitVec.ofNat 64 (arg * 0x100 + op)) = arg ∧
      cmdRsvd (BitVec.ofNat 64 (arg * 0x100 + op)) = 0#48 := by
  have hlt : arg * 0x100 + op < 2 ^ 64 := by omega
  refine ⟨?_, ?_, BitVec.eq_of_toNat_eq ?_⟩ <;>
    simp only [cmdOp, cmdArg, cmdRsvd, BitVec.extractLsb'_toNat, BitVec.toNat_ofNat, Nat.shiftRight_eq_div_pow,
      Nat.mod_eq_of_lt hlt] <;> omega

theorem EncodedFields.nop : EncodedFields.Statement .nop := fun _ => fields_of_arg_op 0 0x00 (by decide) (by decide)
theorem EncodedFields.clear : EncodedFields.Statement .clear := fun _ => fields_of_arg_op 0 0x01 (by decide) (by decide)
theorem EncodedFields.modexp : EncodedFields.Statement .modexp := fun _ => fields_of_arg_op 0 0x10 (by decide) (by decide)
theorem EncodedFields.legendre : EncodedFields.Statement .legendre := fun _ => fields_of_arg_op 0 0x11 (by decide) (by decide)
theorem EncodedFields.bbsSeed : EncodedFields.Statement .bbsSeed := fun _ => fields_of_arg_op 0 0x20 (by decide) (by decide)
theorem EncodedFields.bbsNext (count : Nat) : EncodedFields.Statement (.bbsNext count) := fun h =>
  fields_of_arg_op count 0x21 (of_decide_eq_true h) (by decide)
theorem EncodedFields.keygen : EncodedFields.Statement .keygen := fun _ => fields_of_arg_op 0 0x22 (by decide) (by decide)
theorem EncodedFields.keysched : EncodedFields.Statement .keysched := fun _ => fields_of_arg_op 0 0x30 (by decide) (by decide)
theorem EncodedFields.enc : EncodedFields.Statement .enc := fun _ => fields_of_arg_op 0 0x31 (by decide) (by decide)
theorem EncodedFields.dec : EncodedFields.Statement .dec := fun _ => fields_of_arg_op 0 0x32 (by decide) (by decide)
theorem EncodedFields.fround : EncodedFields.Statement .fround := fun _ => fields_of_arg_op 0 0x33 (by decide) (by decide)
theorem EncodedFields.ffunc : EncodedFields.Statement .ffunc := fun _ => fields_of_arg_op 0 0x34 (by decide) (by decide)
theorem EncodedFields.perm (sel : Nat) : EncodedFields.Statement (.perm sel) := fun h =>
  fields_of_arg_op sel 0x38 (of_decide_eq_true h) (by decide)

end Sys2Proof.Laws
end

