-- ==== Sys2Proof/Laws/Step.lean ====
section
/-! SUPPORT. Said once: everything one step of the machine can do when it answers a next state (R101, R102, R106, R230). Invariants are
proved by cases on `StepCase`, not by unfolding `step`. -/

namespace Sys2Proof.Machine

/-- The ways `exec` can answer (R103): an error other than ILLEGAL, or the commit set of the command. -/
inductive ExecCase : Instr → State → State → Prop where
  | error (i : Instr) (s : State) (e : ErrCode) (he : e ≠ .illegal) : ExecCase i s (s.takeError e)
  | nop (s : State) : ExecCase .nop s (s.complete [])
  | clear (s : State) : ExecCase .clear s (s.complete clearCommit)
  | modexp (s : State) (v : Nat) : ExecCase .modexp s (s.complete [.result v])
  | legendre (s : State) (v : Nat) : ExecCase .legendre s (s.complete [.result v])
  | bbsSeed (s : State) (hb : s.b % 4 = 3) (hm : s.m % 4 = 3) (hne : s.b ≠ s.m) (hlt : s.b * s.m < 2 ^ 64) :
      ExecCase .bbsSeed s (s.complete
        [.bbsP s.b, .bbsQ s.m, .bbsN (s.b * s.m), .bbsX (s.a * s.a % (s.b * s.m)), .bbsv true, .result (s.b * s.m)])
  | bbsNext (s : State) (c : Nat) (hv : s.bbsv = true) (hc : c ≤ 64) :
      ExecCase (.bbsNext c) s (s.complete [.bbsX (bbsRun s.n c s.x 0).1, .result (bbsRun s.n c s.x 0).2])
  | keygen (s : State) (hv : s.bbsv = true) :
      ExecCase .keygen s (s.complete
        [.bbsX (bbsRun s.n 10 s.x 0).1, .key (bbsRun s.n 10 s.x 0).2,
          .subkeys (packSubkeys (schedule s.tables (bbsRun s.n 10 s.x 0).2)), .skv true, .result (bbsRun s.n 10 s.x 0).2])
  | keysched (s : State) (hk : s.k < 2 ^ 10) :
      ExecCase .keysched s (s.complete
        [.subkeys (packSubkeys (schedule s.tables s.k)), .skv true, .result (packSubkeys (schedule s.tables s.k))])
  | enc (s : State) (v : Nat) : ExecCase .enc s (s.complete [.result v])
  | dec (s : State) (v : Nat) : ExecCase .dec s (s.complete [.result v])
  | fround (s : State) (v : Nat) : ExecCase .fround s (s.complete [.result v])
  | ffunc (s : State) (v : Nat) : ExecCase .ffunc s (s.complete [.result v])
  | perm (s : State) (sel v : Nat) : ExecCase (.perm sel) s (s.complete [.result v])

/-- Every command has a next state, and it is one of these. -/
theorem exec_cases (i : Instr) (s : State) : ∃ t, exec i s = .next t ∧ ExecCase i s t := by
  have err : ∀ i e, e ≠ ErrCode.illegal → ExecCase i s (s.takeError e) := fun i e he => .error i s e he
  cases i with
  | nop => exact ⟨_, execNop_spec s, .nop s⟩
  | clear => exact ⟨_, execClear_spec s, .clear s⟩
  | modexp =>
    rcases execModexp_spec s with ⟨-, h⟩ | ⟨-, h⟩
    · exact ⟨_, h, err _ _ (by decide)⟩
    · exact ⟨_, h, .modexp s _⟩
  | legendre =>
    rcases execLegendre_spec s with ⟨-, h⟩ | ⟨-, ⟨-, h⟩ | ⟨-, h⟩ | ⟨-, -, -, h⟩ | ⟨-, -, -, h⟩⟩
    · exact ⟨_, h, err _ _ (by decide)⟩
    · exact ⟨_, h, .legendre s _⟩
    · exact ⟨_, h, .legendre s _⟩
    · exact ⟨_, h, .legendre s _⟩
    · exact ⟨_, h, err _ _ (by decide)⟩
  | bbsSeed =>
    rcases execBbsSeed_spec s with ⟨-, h⟩ | ⟨hb, hm, hne, -, -, ⟨-, h⟩ | ⟨hlt, h⟩⟩
    · exact ⟨_, h, err _ _ (by decide)⟩
    · exact ⟨_, h, err _ _ (by decide)⟩
    · exact ⟨_, h, .bbsSeed s hb hm hne hlt⟩
  | bbsNext c =>
    rcases execBbsNext_spec c s with ⟨-, h⟩ | ⟨-, -, h⟩ | ⟨hv, hc, h⟩
    · exact ⟨_, h, err _ _ (by decide)⟩
    · exact ⟨_, h, err _ _ (by decide)⟩
    · exact ⟨_, h, .bbsNext s c hv hc⟩
  | keygen =>
    rcases execKeygen_spec s with ⟨-, h⟩ | ⟨hv, h⟩
    · exact ⟨_, h, err _ _ (by decide)⟩
    · exact ⟨_, h, .keygen s hv⟩
  | keysched =>
    rcases execKeysched_spec s with ⟨-, h⟩ | ⟨hk, h⟩
    · exact ⟨_, h, err _ _ (by decide)⟩
    · exact ⟨_, h, .keysched s hk⟩
  | enc =>
    rcases execEnc_spec s with ⟨-, h⟩ | ⟨-, -, h⟩ | ⟨-, -, h⟩
    · exact ⟨_, h, err _ _ (by decide)⟩
    · exact ⟨_, h, err _ _ (by decide)⟩
    · exact ⟨_, h, .enc s _⟩
  | dec =>
    rcases execDec_spec s with ⟨-, h⟩ | ⟨-, -, h⟩ | ⟨-, -, h⟩
    · exact ⟨_, h, err _ _ (by decide)⟩
    · exact ⟨_, h, err _ _ (by decide)⟩
    · exact ⟨_, h, .dec s _⟩
  | fround =>
    rcases execFround_spec s with ⟨-, h⟩ | ⟨-, -, h⟩
    · exact ⟨_, h, err _ _ (by decide)⟩
    · exact ⟨_, h, .fround s _⟩
  | ffunc =>
    rcases execFfunc_spec s with ⟨-, h⟩ | ⟨-, -, h⟩
    · exact ⟨_, h, err _ _ (by decide)⟩
    · exact ⟨_, h, .ffunc s _⟩
  | perm sel =>
    rcases execPerm_spec sel s with ⟨-, h⟩ | ⟨_, -, ⟨-, h⟩ | ⟨-, h⟩⟩
    · exact ⟨_, h, err _ _ (by decide)⟩
    · exact ⟨_, h, err _ _ (by decide)⟩
    · exact ⟨_, h, .perm s sel _⟩

/-- The inversion of `exec`. -/
theorem execCase_of_next {i : Instr} {s t : State} (h : exec i s = .next t) : ExecCase i s t := by
  obtain ⟨u, hu, hc⟩ := exec_cases i s
  rw [h] at hu
  cases hu
  exact hc

/-- The shape of every completion: an error's or a commit set's (R104, R105). -/
theorem ExecCase.shape {i : Instr} {s t : State} (h : ExecCase i s t) : (∃ e, t = s.takeError e) ∨ ∃ ws, t = s.complete ws := by
  cases h with
  | error _ _ e => exact .inl ⟨e, rfl⟩
  | _ => exact .inr ⟨_, rfl⟩

/-- What no command touches: the host agent, the reset input, the tables and the model's own turns (R29, R104). -/
theorem ExecCase.keeps {i : Instr} {s t : State} (h : ExecCase i s t) :
    t.program = s.program ∧ t.observed = s.observed ∧ t.resetAsserted = s.resetAsserted ∧ t.tables = s.tables ∧
      t.schedule = s.schedule ∧ t.latencies = s.latencies ∧ t.turns = s.turns := by
  rcases h.shape with ⟨e, rfl⟩ | ⟨ws, rfl⟩
  · exact ⟨rfl, rfl, rfl, rfl, rfl, rfl, rfl⟩
  · obtain ⟨h1, h2, h3, h4, h5, h6, h7, -⟩ := commit_keeps s ws
    exact ⟨h1, h2, h3, h4, h5, h6, h7⟩

/-- A command leaves the engine idle (R104, R105). -/
theorem ExecCase.idle {i : Instr} {s t : State} (h : ExecCase i s t) : t.engine = .idle := by
  rcases h.shape with ⟨e, rfl⟩ | ⟨ws, rfl⟩ <;> rfl

/-- The ways a step can answer a next state. The agents act on `s.turnTaken`. -/
inductive StepCase (s : State) : State → Prop where
  | hostIdle (ht : s.nextTurn = .host) (hp : s.program = []) : StepCase s s.turnTaken
  | hostRead (ht : s.nextTurn = .host) (off : Nat) (rest : List HostOp) (hp : s.program = .read off 8 :: rest)
      (hr : s.resetAsserted = false) (hoff : off < 0x100) (hal : off % 8 = 0) :
      StepCase s (s.turnTaken.advance.observe off (s.turnTaken.advance.readAt off))
  | hostWrite (ht : s.nextTurn = .host) (off : Nat) (v : Word) (rest : List HostOp) (hp : s.program = .write off 8 v :: rest)
      (hr : s.resetAsserted = false) (hoff : off < 0x100) (hal : off % 8 = 0) :
      StepCase s (s.turnTaken.advance.writeAt off v)
  | hostWaits (ht : s.nextTurn = .host) (rest : List HostOp) (hp : s.program = .wait :: rest) (hr : s.resetAsserted = false)
      (hb : s.busy = true) : StepCase s (s.turnTaken.observe 0x08 s.status)
  | hostWaited (ht : s.nextTurn = .host) (rest : List HostOp) (hp : s.program = .wait :: rest) (hr : s.resetAsserted = false)
      (hb : s.busy = false) : StepCase s (s.turnTaken.advance.observe 0x08 s.status)
  | engineHeld (ht : s.nextTurn = .engine) (hr : s.resetAsserted = true) : StepCase s s.turnTaken
  | engineIdle (ht : s.nextTurn = .engine) (hr : s.resetAsserted = false) (he : s.engine = .idle) : StepCase s s.turnTaken
  | engineCounts (ht : s.nextTurn = .engine) (hr : s.resetAsserted = false) (w : Word) (lat : Nat) (he : s.engine = .busy w lat)
      (hl : 1 < lat) : StepCase s { s.turnTaken with engine := .busy w (lat - 1) }
  | engineCompletes (ht : s.nextTurn = .engine) (hr : s.resetAsserted = false) (w : Word) (lat : Nat)
      (he : s.engine = .busy w lat) (hl : lat ≤ 1) (i : Instr) (hd : decodeWord w = .ok i) (t : State)
      (hx : exec i s.turnTaken = .next t) : StepCase s t
  | engineIllegal (ht : s.nextTurn = .engine) (hr : s.resetAsserted = false) (w : Word) (lat : Nat)
      (he : s.engine = .busy w lat) (hl : lat ≤ 1) (e : DecodeError) (hd : decodeWord w = .error e) :
      StepCase s (s.turnTaken.takeError .illegal)
  | assertReset (ht : s.nextTurn = .assertReset) : StepCase s s.turnTaken.assertReset
  | releaseReset (ht : s.nextTurn = .releaseReset) : StepCase s s.turnTaken.releaseReset

/-- Taking a turn does not change whether an access is possible. -/
theorem accessProblem_congr {s s' : State} (h : s'.resetAsserted = s.resetAsserted) (off width : Nat) :
    s'.accessProblem off width = s.accessProblem off width := by
  simp only [State.accessProblem, h]

/-- The completing engine step (R103, R106). -/
theorem engineStep_completes {s : State} {w : Word} {lat : Nat} (hr : s.resetAsserted = false) (he : s.engine = .busy w lat)
    (hl : lat ≤ 1) : engineStep s = completeWord w s := by
  rw [engineStep, hr, if_neg (by decide), he]
  exact if_neg (by omega)

/-- An engine step with latency left (R106). -/
theorem engineStep_counts {s : State} {w : Word} {lat : Nat} (hr : s.resetAsserted = false) (he : s.engine = .busy w lat)
    (hl : 1 < lat) : engineStep s = .next { s with engine := .busy w (lat - 1) } := by
  rw [engineStep, hr, if_neg (by decide), he]
  exact if_pos hl

/-- The inversion of `step`. -/
theorem step_cases {s t : State} (h : step s = .next t) : StepCase s t := by
  unfold step at h
  cases ht : s.nextTurn with
  | host =>
    rw [ht] at h
    change hostStep s.turnTaken = .next t at h
    rw [hostStep, State.turnTaken_program] at h
    cases hp : s.program with
    | nil => rw [hp] at h; cases h; exact .hostIdle ht hp
    | cons op rest =>
      rw [hp] at h
      cases op with
      | read off width =>
        simp only [busRead] at h
        split at h
        · exact absurd h (accessProblem_stops ‹_›)
        · next hn =>
          obtain ⟨hr, hoff, rfl, hal⟩ := (accessProblem_none_iff _ _ _).mp hn
          cases h
          exact .hostRead ht off rest hp hr hoff hal
      | write off width v =>
        simp only [busWrite] at h
        split at h
        · exact absurd h (accessProblem_stops ‹_›)
        · next hn =>
          obtain ⟨hr, hoff, rfl, hal⟩ := (accessProblem_none_iff _ _ _).mp hn
          cases h
          exact .hostWrite ht off v rest hp hr hoff hal
      | wait =>
        simp only [waitPoll] at h
        split at h
        · exact absurd h (accessProblem_stops ‹_›)
        · next hn =>
          obtain ⟨hr, -, -, -⟩ := (accessProblem_none_iff _ _ _).mp hn
          split at h
          · next hb => cases h; exact .hostWaits ht rest hp hr hb
          · next hb => cases h; exact .hostWaited ht rest hp hr (Bool.eq_false_iff.mpr hb)
  | engine =>
    rw [ht] at h
    change engineStep s.turnTaken = .next t at h
    cases hr : s.resetAsserted with
    | true => rw [engineStep, if_pos (show s.turnTaken.resetAsserted = true from hr)] at h; cases h; exact .engineHeld ht hr
    | false =>
      cases he : s.engine with
      | idle =>
        rw [engineStep, if_neg (by simp [hr]), State.turnTaken_engine, he] at h
        cases h
        exact .engineIdle ht hr he
      | busy w lat =>
        by_cases hl : 1 < lat
        · rw [engineStep_counts (s := s.turnTaken) hr he hl] at h
          cases h
          exact .engineCounts ht hr w lat he hl
        · have hl' : lat ≤ 1 := by omega
          rw [engineStep_completes (s := s.turnTaken) hr he hl', completeWord] at h
          cases hd : decodeWord w with
          | ok i => rw [hd] at h; exact .engineCompletes ht hr w lat he hl' i hd t h
          | error e => rw [hd] at h; cases h; exact .engineIllegal ht hr w lat he hl' e hd
  | assertReset => rw [ht] at h; cases h; exact .assertReset ht
  | releaseReset => rw [ht] at h; cases h; exact .releaseReset ht

/-! ## Steps by whose turn it is -/

/-- The engine's turn. -/
theorem step_engine {s : State} (ht : s.nextTurn = .engine) : step s = engineStep s.turnTaken := by
  rw [step, ht]; rfl

/-- The host's turn. -/
theorem step_host {s : State} (ht : s.nextTurn = .host) : step s = hostStep s.turnTaken := by
  rw [step, ht]; rfl

/-- A supported host write (R65). -/
theorem hostStep_write {s : State} {off : Nat} {v : Word} {rest : List HostOp} (hp : s.program = .write off 8 v :: rest)
    (hr : s.resetAsserted = false) (hoff : off < 0x100) (hal : off % 8 = 0) : hostStep s = .next (s.advance.writeAt off v) := by
  have hn : s.advance.accessProblem off 8 = none := (accessProblem_none_iff _ _ _).mpr ⟨hr, hoff, rfl, hal⟩
  rw [hostStep, hp]
  simp only [busWrite, hn]

/-- A supported host read (R65). -/
theorem hostStep_read {s : State} {off : Nat} {rest : List HostOp} (hp : s.program = .read off 8 :: rest)
    (hr : s.resetAsserted = false) (hoff : off < 0x100) (hal : off % 8 = 0) :
    hostStep s = .next (s.advance.observe off (s.advance.readAt off)) := by
  have hn : s.advance.accessProblem off 8 = none := (accessProblem_none_iff _ _ _).mpr ⟨hr, hoff, rfl, hal⟩
  rw [hostStep, hp]
  simp only [busRead, hn]

/-- One read of a `wait` (R89). -/
theorem hostStep_wait {s : State} {rest : List HostOp} (hp : s.program = .wait :: rest) (hr : s.resetAsserted = false) :
    hostStep s = .next (if s.busy then s.observe 0x08 s.status else s.advance.observe 0x08 s.status) := by
  have hn : s.accessProblem Reg.status.offset 8 = none := (accessProblem_none_iff _ _ _).mpr ⟨hr, by decide, rfl, by decide⟩
  rw [hostStep, hp]
  simp only [waitPoll, hn]
  split <;> rfl

/-! ## Writes -/

/-- A write of the window does one of five things (R27, R31, R65, R101, R102). -/
theorem writeAt_cases (s : State) (off : Nat) (v : Word) :
    s.writeAt off v = s ∨ s.writeAt off v = s.lose ∨ (s.accepts v = true ∧ s.writeAt off v = s.accept v) ∨
      (s.busy = false ∧ (s.writeAt off v = { s with opa := v } ∨ s.writeAt off v = { s with opb := v } ∨
        s.writeAt off v = { s with opm := v })) ∨
      (s.busy = false ∧ s.writeAt off v = { s with key := v, status := Status.withSkv s.status false }) := by
  unfold State.writeAt
  cases Reg.ofSlot (off / 8) with
  | none => exact .inl rfl
  | some r =>
    cases r <;> simp only [State.writeReg, State.writeCmd] <;> (try split_ifs) <;> simp_all

/-! ## What a step uses up -/

/-- Every step uses up one turn and nothing else of the model's own turns (log entry 2). -/
theorem step_turns {s t : State} (h : step s = .next t) : t.schedule = s.coming.tail ∧ t.turns = s.turns + 1 := by
  cases step_cases h with
  | hostWrite _ off v =>
    rcases writeAt_cases s.turnTaken.advance off v with h | h | ⟨-, h⟩ | ⟨-, h | h | h⟩ | ⟨-, h⟩ <;> rw [h] <;> exact ⟨rfl, rfl⟩
  | engineCompletes _ _ _ _ _ _ _ _ _ hx =>
    obtain ⟨-, -, -, -, hs, -, ht⟩ := (execCase_of_next hx).keeps
    exact ⟨hs, ht⟩
  | releaseReset => unfold State.releaseReset; split <;> exact ⟨rfl, rfl⟩
  | _ => exact ⟨rfl, rfl⟩

/-- The host's program moves on only in a step of the host, and then by one action (R15, R67). -/
theorem step_program {s t : State} (h : step s = .next t) :
    t.program = s.program ∨ (s.nextTurn = .host ∧ t.program = s.program.tail) := by
  cases step_cases h with
  | hostRead ht => exact .inr ⟨ht, rfl⟩
  | hostWrite ht off v =>
    right
    rcases writeAt_cases s.turnTaken.advance off v with h | h | ⟨-, h⟩ | ⟨-, h | h | h⟩ | ⟨-, h⟩ <;> rw [h] <;> exact ⟨ht, rfl⟩
  | hostWaited ht => exact .inr ⟨ht, rfl⟩
  | engineCompletes _ _ _ _ _ _ _ _ _ hx => exact .inl (execCase_of_next hx).keeps.1
  | releaseReset => left; unfold State.releaseReset; split <;> rfl
  | _ => exact .inl rfl

/-- With no access pending a step has a next state, and still none is pending. -/
theorem step_of_program_nil {s : State} (hp : s.program = []) : ∃ t, step s = .next t ∧ t.program = [] := by
  have hnext : ∃ t, step s = .next t := by
    cases ht : s.nextTurn with
    | host => exact ⟨s.turnTaken, by rw [step_host ht, hostStep, State.turnTaken_program, hp]⟩
    | engine =>
      rw [step_engine ht, engineStep]
      split
      · exact ⟨_, rfl⟩
      · split
        · exact ⟨_, rfl⟩
        · split
          · exact ⟨_, rfl⟩
          · rw [completeWord]
            split
            · obtain ⟨t, hx, -⟩ := exec_cases ‹_› s.turnTaken
              exact ⟨t, hx⟩
            · exact ⟨_, rfl⟩
    | assertReset => exact ⟨s.turnTaken.assertReset, by rw [step, ht]; rfl⟩
    | releaseReset => exact ⟨s.turnTaken.releaseReset, by rw [step, ht]; rfl⟩
  obtain ⟨t, h⟩ := hnext
  refine ⟨t, h, ?_⟩
  rcases step_program h with hq | ⟨-, hq⟩ <;> rw [hq, hp]
  rfl

/-! ## Several steps -/

theorem steps_zero (s : State) : steps 0 s = .next s := rfl

/-- One step, then the rest. -/
theorem steps_succ {k : Nat} {s t : State} (h : step s = .next t) : steps (k + 1) s = steps k t := by
  rw [steps, h]

/-- One more step at the end of a run that goes on (R100: one after the other). -/
theorem steps_add {k m : Nat} {s t : State} (h : steps k s = .next t) : steps (k + m) s = steps m t := by
  induction k generalizing s with
  | zero => cases h; rw [Nat.zero_add]
  | succ k ih =>
    rw [steps] at h
    rw [show k + 1 + m = (k + m) + 1 by omega, steps]
    cases hs : step s with
    | next u => rw [hs] at h; exact ih h
    | fault r => rw [hs] at h; cases h
    | refused r => rw [hs] at h; cases h

/-- What every step keeps, every run keeps: an invariant's induction, once. -/
theorem steps_induction {P : State → Prop} (hstep : ∀ s t, P s → step s = .next t → P t) {k : Nat} {s t : State} (hs : P s)
    (h : steps k s = .next t) : P t := by
  induction k generalizing s with
  | zero => cases h; exact hs
  | succ k ih =>
    rw [steps] at h
    cases hu : step s with
    | next u => rw [hu] at h; exact ih (hstep s u hs hu) h
    | fault r => rw [hu] at h; cases h
    | refused r => rw [hu] at h; cases h

theorem coreRun_next (M : Host.Core) (k : Nat) (s t : M.State) (h : M.step s = .next t) : M.run (k + 1) s = M.run k t := by
  rw [Host.Core.run, h]
theorem coreRun_fault (M : Host.Core) (k : Nat) (s : M.State) (r : M.Fault) (h : M.step s = .fault r) : M.run (k + 1) s = .fault r := by
  rw [Host.Core.run, h]
theorem coreRun_refused (M : Host.Core) (k : Nat) (s : M.State) (r : M.Refusal) (h : M.step s = .refused r) :
    M.run (k + 1) s = .refused r := by
  rw [Host.Core.run, h]

/-- `steps` is the host interface's run of this machine. -/
theorem steps_eq_run (k : Nat) (s : State) : Host.Core.run Sys2Proof.core k s = steps k s := by
  induction k generalizing s with
  | zero => rfl
  | succ k ih =>
    rw [steps]
    cases hs : step s with
    | next u => exact (coreRun_next core k s u hs).trans (ih u)
    | fault r => exact coreRun_fault core k s r hs
    | refused r => exact coreRun_refused core k s r hs

end Sys2Proof.Machine
end

