-- ==== Sys2Proof/Tests/Slice0.lean ====
section
/-! SUPPORT. Tests and witnesses. Expected values come from the spec: the worked examples of the rules and 95_test_vectors.md (vector
names such as M1 or B8 are its). The witnesses show, for each statement with hypotheses, concrete states that meet them. -/

namespace Sys2Proof.Tests

open Sys2Proof Sys2Proof.Machine

/-! ## Small states -/

/-- From reset with the operand registers written. -/
def withOps (a b m : Word) : State := { State.reset with opa := a, opb := b, opm := m }

/-- From reset with the given STATUS. -/
def withStatus (st : Word) : State := { State.reset with status := st }

/-- After vector B1: BBS_SEED with seed 5, p = 7, q = 11. -/
def seeded : State := { withOps 5 7 11 with bbsP := 7, bbsQ := 11, bbsN := 77, bbsX := 25, result := 77, status := 0x200012 }

/-- After KEYSCHED of 0x282, with a block in OPA. -/
def keyed (block : Word) : State :=
  { State.reset with opa := block, key := 0x282, subkeys := 0xA492, result := 0xA492, status := 0x300022 }

/-- The state with the word accepted and its last engine step to come. -/
def running (w : Word) (s : State) : State :=
  { s with status := acceptStatus s.status w, engine := .busy w 1, schedule := [.engine] }

/-- The state with one bus access of the host to come. -/
def hostTurn (op : HostOp) (s : State) : State := { s with program := [op], schedule := [.host] }

/-- A MODEXP running with two units of latency left. -/
def busyState : State := { withOps 2 10 1000 with status := 0x100001, engine := .busy 0x10 2 }

/-- After the error of vector M21. -/
def errState : State := { withOps 2 3 0 with status := 0x100206 }

/-- RESULT and STATUS after a step. -/
def seen : Outcome → Option (Word × Word)
  | .next t => some (t.result, t.status)
  | .fault _ => none
  | .refused _ => none

/-- BBS_P, BBS_Q, BBS_N and BBS_X after a step. -/
def seenBbs : Outcome → Option (List Word)
  | .next t => some [t.bbsP, t.bbsQ, t.bbsN, t.bbsX]
  | .fault _ => none
  | .refused _ => none

/-- KEY and SUBKEYS after a step. -/
def seenKey : Outcome → Option (Word × Word)
  | .next t => some (t.key, t.subkeys)
  | .fault _ => none
  | .refused _ => none

/-! ## Well-formedness (R80, R81): an argument of more than 8 bits fits no command word -/

theorem test_wellFormed_bbsNext_count_256_refused : ¬ (Instr.bbsNext 256).WellFormed := by decide
theorem test_wellFormed_perm_selector_256_refused : ¬ (Instr.perm 256).WellFormed := by decide
theorem test_wellFormed_largest_arguments : (Instr.bbsNext 255).WellFormed ∧ (Instr.perm 255).WellFormed := by decide

/-! ## Decoding: words written out from R80 and R82 as RSVD (48 bits), ARG (8 bits), OP (8 bits) -/

theorem test_decode_nop : decodeWord (0#48 ++ 0x00#8 ++ 0b00000000#8) = .ok .nop := by decide
theorem test_decode_clear : decodeWord (0#48 ++ 0x00#8 ++ 0b00000001#8) = .ok .clear := by decide
theorem test_decode_modexp : decodeWord (0#48 ++ 0x00#8 ++ 0b00010000#8) = .ok .modexp := by decide
theorem test_decode_legendre : decodeWord (0#48 ++ 0x00#8 ++ 0b00010001#8) = .ok .legendre := by decide
theorem test_decode_bbsSeed : decodeWord (0#48 ++ 0x00#8 ++ 0b00100000#8) = .ok .bbsSeed := by decide
theorem test_decode_bbsNext : decodeWord (0#48 ++ 0x40#8 ++ 0b00100001#8) = .ok (.bbsNext 64) := by decide
theorem test_decode_keygen : decodeWord (0#48 ++ 0x00#8 ++ 0b00100010#8) = .ok .keygen := by decide
theorem test_decode_keysched : decodeWord (0#48 ++ 0x00#8 ++ 0b00110000#8) = .ok .keysched := by decide
theorem test_decode_enc : decodeWord (0#48 ++ 0x00#8 ++ 0b00110001#8) = .ok .enc := by decide
theorem test_decode_dec : decodeWord (0#48 ++ 0x00#8 ++ 0b00110010#8) = .ok .dec := by decide
theorem test_decode_fround : decodeWord (0#48 ++ 0x00#8 ++ 0b00110011#8) = .ok .fround := by decide
theorem test_decode_ffunc : decodeWord (0#48 ++ 0x00#8 ++ 0b00110100#8) = .ok .ffunc := by decide
theorem test_decode_perm : decodeWord (0#48 ++ 0xFF#8 ++ 0b00111000#8) = .ok (.perm 255) := by decide
theorem test_decode_unknown_opcode : decodeWord 0x02 = .error .unknownOpcode := by decide
theorem test_decode_argument_not_zero : decodeWord 0x0110 = .error .argumentNotZero := by decide
theorem test_decode_reserved_bit : decodeWord 0x8000000000000021 = .error .reservedBitSet := by decide
theorem test_decodeTableWord_perm : decodeTableWord 64 0x638 = some (.perm 6) := by decide
theorem test_encode_is_the_assembler_word : encode (.bbsNext 65) = 0x4121 ∧ encode (.perm 6) = 0x638 := by decide

/-! ## One engine step per command: the completion a `wait` ends on -/

theorem test_nop_from_reset : seen (step (running 0x00 State.reset)) = some (0, 0x2) := by decide +kernel
theorem test_clear_after_failed_modexp : seen (step (running 0x01 (withStatus 0x100216))) = some (0, 0x10012) := by decide +kernel
theorem test_modexp_M15_128_bit_products :
    seen (step (running 0x10 (withOps 3 0xFFFFFFFFFFFFFFFE 0xFFFFFFFFFFFFFFC5))) = some (0x4FE18475207A62AD, 0x100002) := by
  decide +kernel
theorem test_modexp_M21_zero_modulus : seen (step (running 0x10 (withOps 2 3 0))) = some (0, 0x100206) := by decide +kernel
theorem test_legendre_L4_non_residue :
    seen (step (running 0x11 (withOps 3 0 7))) = some (0xFFFFFFFFFFFFFFFF, 0x110002) := by decide +kernel
theorem test_legendre_L20_not_prime : seen (step (running 0x11 (withOps 2 0 9))) = some (0, 0x110306) := by decide +kernel
theorem test_bbsSeed_B1 :
    seen (step (running 0x20 (withOps 5 7 11))) = some (77, 0x200012) ∧
      seenBbs (step (running 0x20 (withOps 5 7 11))) = some [7, 11, 77, 25] := by decide +kernel
theorem test_bbsSeed_B17_out_of_range :
    seen (step (running 0x20 (withOps 5 4294967311 4294967291))) = some (0, 0x200506) := by decide +kernel
theorem test_bbsNext_B5_bit_order :
    seen (step (running 0x0821 seeded)) = some (0x99, 0x210012) ∧
      seenBbs (step (running 0x0821 seeded)) = some [7, 11, 77, 25] := by decide +kernel
theorem test_bbsNext_B8_count : seen (step (running 0x4121 seeded)) = some (77, 0x210716) := by decide +kernel
theorem test_keygen_B10 :
    seenKey (step (running 0x22 { seeded with bbsP := 719, bbsQ := 2879, bbsN := 2070001, bbsX := 509796 })) =
        some (0x21F, 0xEBAB) ∧
      seenBbs (step (running 0x22 { seeded with bbsP := 719, bbsQ := 2879, bbsN := 2070001, bbsX := 509796 })) =
        some [719, 2879, 2070001, 1150695] := by decide +kernel
theorem test_keygen_B22_no_seed : seen (step (running 0x22 State.reset)) = some (0, 0x220606) := by decide +kernel
theorem test_keysched_282 :
    seen (step (running 0x30 { State.reset with key := 0x282 })) = some (0xA492, 0x300022) := by decide +kernel
theorem test_keysched_wide_key : seen (step (running 0x30 { State.reset with key := 0x400 })) = some (0, 0x300806) := by
  decide +kernel
theorem test_enc_golden_scenario : seen (step (running 0x31 (keyed 0x41))) = some (0x91, 0x310022) := by decide +kernel
theorem test_dec_golden_scenario : seen (step (running 0x32 (keyed 0x91))) = some (0x41, 0x320022) := by decide +kernel
theorem test_fround_84_A4 : seen (step (running 0x33 (withOps 0x84 0xA4 0))) = some (0xC4, 0x330002) := by decide +kernel
theorem test_fround_wide_subkey : seen (step (running 0x33 (withOps 1 256 0))) = some (0, 0x330806) := by decide +kernel
theorem test_ffunc_4_A4 : seen (step (running 0x34 (withOps 4 0xA4 0))) = some (4, 0x340002) := by decide +kernel
theorem test_ffunc_wide_half : seen (step (running 0x34 (withOps 16 0 0))) = some (0, 0x340806) := by decide +kernel
theorem test_perm_P10 : seen (step (running 0x0238 (withOps 0x155 0 0))) = some (0x0B3, 0x380002) := by decide +kernel
theorem test_perm_X2_selector_before_width :
    seen (step (running 0x0938 (withOps 0x100000 0 0))) = some (0, 0x380A06) := by decide +kernel
theorem test_illegal_word : seen (step (running 0x0110 State.reset)) = some (0, 0x100106) := by decide +kernel

/-! ## The tables -/

/-- S0 and S1 read through the indexing of R164. -/
theorem test_sboxes :
    (List.range 16).map (sbox .outer defaultTables.s0) = [1, 3, 0, 2, 3, 1, 2, 0, 0, 3, 2, 1, 1, 3, 3, 2] ∧
      (List.range 16).map (sbox .outer defaultTables.s1) = [0, 2, 1, 0, 2, 1, 3, 3, 3, 2, 0, 1, 1, 0, 0, 3] := by decide

/-- Under SPLIT (R164) row and column are bits 3:2 and 1:0, so the 16 inputs read the four rows of the box in order. -/
theorem test_sbox_split :
    (List.range 16).map (sbox .split defaultTables.s0) = [1, 0, 3, 2, 3, 2, 1, 0, 0, 2, 1, 3, 3, 1, 3, 2] := by decide

/-- R161: the expansion is "two fixed expansion permutations", so a record whose EP repeats a position within a half is not legal; the
same half twice is. -/
theorem test_legal_expansion_halves :
    ({ defaultTables with ep := [1, 1, 1, 1, 1, 1, 1, 1] } : FeistelTables).legal = false ∧
      ({ defaultTables with ep := [4, 1, 2, 3, 2, 3, 4, 2] } : FeistelTables).legal = false ∧
      ({ defaultTables with ep := [4, 3, 2, 1, 4, 3, 2, 1] } : FeistelTables).legal = true := by decide +kernel

/-- Every table of mu on one input of 95_test_vectors.md §2.4. -/
theorem test_every_table :
    [MuTable.ip, .ipinv, .p10, .p8, .p4, .ep, .sw, .ls1, .ls2].map
        (fun t => perm (t.entries defaultTables) t.inputWidth (if t.inputWidth = 8 then 0xA5 else if t.inputWidth = 10 then 0x2AA else 6)) =
      [0x74, 0x63, 0x34C, 0x65, 10, 0x3C, 0x5A, 0x174, 0x2C9] := by decide

/-! ## Witnesses: states that meet the hypotheses of the statements -/

theorem witness_DecodeOfEncode : (Instr.bbsNext 255).WellFormed ∧ (Instr.perm 0).WellFormed ∧ Instr.nop.WellFormed := by decide

theorem witness_EncodeOfDecode : decodeWord 0xFF38 = .ok (.perm 255) := by decide

theorem witness_OpcodeMapTotalAndUnambiguous : cmdRsvd 0x10000 ≠ 0#48 := by decide

theorem witness_StepRunsDecodedCommand :
    (running 0x10 (withOps 2 10 1000)).nextTurn = .engine ∧ (running 0x10 (withOps 2 10 1000)).resetAsserted = false ∧
      (running 0x10 (withOps 2 10 1000)).engine = .busy 0x10 1 ∧ decodeWord 0x10 = .ok .modexp := by decide

theorem witness_FetchedWordRunsNext : decodeTableWord 64 0xFF38 = some (.perm 255) := by decide

theorem witness_EngineStepCountsLatency :
    (let s : State := { busyState with schedule := [.engine] };
      s.nextTurn = .engine ∧ s.resetAsserted = false ∧ s.engine = .busy 0x10 2 ∧ 1 < 2) ∧
      (let s : State := { State.reset with schedule := [.engine] };
        s.nextTurn = .engine ∧ s.engine = .idle) := by decide

theorem witness_CommandWordAccepted :
    (let s := hostTurn (.write 0x00 8 0x0110) State.reset;
      s.nextTurn = .host ∧ s.resetAsserted = false ∧ s.program = .write 0x00 8 0x0110 :: [] ∧ s.busy = false ∧ s.err = false) ∧
      (let s := hostTurn (.write 0x00 8 0x01) errState;
        s.nextTurn = .host ∧ s.resetAsserted = false ∧ s.program = .write 0x00 8 0x01 :: [] ∧ s.busy = false ∧ s.err = true) := by
  decide

theorem witness_CommandWordDropped :
    (let s := hostTurn (.write 0x00 8 0x01) busyState;
      s.nextTurn = .host ∧ s.resetAsserted = false ∧ s.program = .write 0x00 8 0x01 :: [] ∧ s.busy = true) ∧
      (let s := hostTurn (.write 0x00 8 0x0101) errState;
        s.nextTurn = .host ∧ s.resetAsserted = false ∧ s.program = .write 0x00 8 0x0101 :: [] ∧ s.err = true ∧
          (0x0101 : Word) ≠ 0x0000000000000001#64) := by decide

theorem witness_IllegalWordEndsInIllegal :
    (running 0x0110 State.reset).nextTurn = .engine ∧ (running 0x0110 State.reset).resetAsserted = false ∧
      (running 0x0110 State.reset).engine = .busy 0x0110 1 ∧ decodeWord 0x0110 = .error .argumentNotZero := by decide

theorem witness_ErrorsArePrecise : ∃ t, exec .enc State.reset = .next t ∧ State.reset.err = false ∧ t.err = true :=
  ⟨_, rfl, by decide, by decide⟩

/-- Each register some command may write does change in some completion. -/
theorem witness_OnlyNamedCommandsWrite :
    (∃ t, exec .keygen seeded = .next t ∧ t.key ≠ seeded.key ∧ t.subkeys ≠ seeded.subkeys ∧ t.skv ≠ seeded.skv ∧
      t.bbsX ≠ seeded.bbsX ∧ t.result ≠ seeded.result) ∧
      (∃ t, exec .bbsSeed (withOps 5 7 11) = .next t ∧ t.bbsP ≠ 0 ∧ t.bbsQ ≠ 0 ∧ t.bbsN ≠ 0 ∧ t.bbsv ≠ false) ∧
      (∃ t, exec .clear (withStatus 0x10020E) = .next t ∧ t.lost ≠ (withStatus 0x10020E).lost ∧
        (withStatus 0x10020E).err = true ∧ t.err = false) :=
  ⟨⟨_, rfl, by decide +kernel⟩, ⟨_, rfl, by decide +kernel⟩, ⟨_, rfl, by decide +kernel⟩⟩

theorem witness_NothingVisibleBeforeCompletion :
    ∃ t, step (hostTurn (.write 0x10 8 7) busyState) = .next t ∧ (hostTurn (.write 0x10 8 7) busyState).busy = true ∧
      (hostTurn (.write 0x10 8 7) busyState).resetAsserted = false ∧ t.engine ≠ .idle :=
  ⟨_, rfl, by decide, by decide, by decide⟩

/-- A CLEAR running in the error state meets the machine invariant. -/
theorem clearing_inv : Machine.Inv (running 0x01 errState) where
  busyNotDone := by decide
  errHasCode := by decide
  errBusyIsClear := fun _ _ => ⟨1, rfl⟩
  subkeysOfKey := by decide
  bbsSeeded := by decide
  tablesLegal := by decide +kernel
  statusReserved := by decide
  errCodeKnown := by decide
  subkeysNarrow := by decide
  busyIsEngine := by decide
  engineRuns := by intro w lat h; cases h; decide
  resetHeld := by decide

theorem witness_ErrorStateLeftOnlyByClearOrReset :
    ∃ t, Machine.Inv (running 0x01 errState) ∧ step (running 0x01 errState) = .next t ∧ (running 0x01 errState).err = true ∧
      t.err = false :=
  ⟨_, clearing_inv, rfl, by decide, by decide⟩

theorem witness_CommandCompletesAfterLatency :
    let s : State := { busyState with schedule := [.engine, .engine] };
    1 ≤ 2 ∧ s.resetAsserted = false ∧ s.engine = .busy 0x10 2 ∧ decodeWord 0x10 = .ok .modexp ∧
      s.schedule = List.replicate 2 .engine ++ [] := by decide

/-- A NOP with one engine step left while the host waits; the engine acts first, then the host. -/
def waiting : State := { running 0x00 State.reset with program := [.wait], schedule := [.engine, .host] }

/-- The state after a step, and the same state where the machine stops. -/
def after (s : State) : State :=
  match step s with
  | .next t => t
  | .fault _ => s
  | .refused _ => s

/-- The infinite run from `waiting`. -/
def waitingRun (n : Nat) : State := after^[n] waiting

theorem waitingRun_succ (n : Nat) : waitingRun (n + 1) = after (waitingRun n) := Function.iterate_succ_apply' after n waiting

theorem step_waitingRun_of_program_nil {n : Nat} (h : (waitingRun n).program = []) :
    step (waitingRun n) = .next (waitingRun (n + 1)) ∧ (waitingRun (n + 1)).program = [] := by
  obtain ⟨t, ht, hp⟩ := step_of_program_nil h
  have he : waitingRun (n + 1) = t := by rw [waitingRun_succ, after, ht]
  rw [he]
  exact ⟨ht, hp⟩

theorem waitingRun_program_nil (n : Nat) : (waitingRun (n + 2)).program = [] := by
  induction n with
  | zero => decide
  | succ n ih => exact (step_waitingRun_of_program_nil ih).2

theorem waitingRun_isRun : IsRun waitingRun
  | 0 => rfl
  | 1 => rfl
  | n + 2 => (step_waitingRun_of_program_nil (waitingRun_program_nil n)).1

theorem waitingRun_hostGoesOn : HostGoesOn waitingRun := fun n h =>
  absurd (waitingRun_program_nil n) (h (n + 2) (by omega))

/-- The waiting state meets the machine invariant. -/
theorem waiting_inv : Machine.Inv waiting where
  busyNotDone := by decide
  errHasCode := by decide
  errBusyIsClear := fun h => absurd h (by decide)
  subkeysOfKey := by decide
  bbsSeeded := by decide
  tablesLegal := by decide +kernel
  statusReserved := by decide
  errCodeKnown := by decide
  subkeysNarrow := by decide
  busyIsEngine := by decide
  engineRuns := by intro w lat h; cases h; decide
  resetHeld := by decide

theorem witness_EveryRunIsFairToEngine : IsRun waitingRun := waitingRun_isRun

theorem witness_RunningCommandEndsInEveryRun :
    IsRun waitingRun ∧ Machine.Inv (waitingRun 0) ∧ (waitingRun 0).engine = .busy 0x00 1 :=
  ⟨waitingRun_isRun, waiting_inv, rfl⟩

/-- Also the inner premises of its first clause: at step 1 the wait is still pending and the host's read of STATUS comes next. -/
theorem witness_WaitEndsInEveryRun :
    IsRun waitingRun ∧ Machine.Inv (waitingRun 0) ∧ (waitingRun 0).program = .wait :: [] ∧ HostGoesOn waitingRun ∧
      (waitingRun 1).program = .wait :: [] ∧ (waitingRun 1).nextTurn = .host :=
  ⟨waitingRun_isRun, waiting_inv, rfl, waitingRun_hostGoesOn, rfl, rfl⟩

theorem witness_ReadReturnsTheSlot :
    ∀ off ∈ [0x00, 0x08, 0x10, 0x18, 0x20, 0x28, 0x30, 0x38, 0x40, 0x48, 0x50, 0x58, 0x60, 0xF8],
      (hostTurn (.read off 8) seeded).nextTurn = .host ∧ (hostTurn (.read off 8) seeded).resetAsserted = false ∧
        (hostTurn (.read off 8) seeded).program = .read off 8 :: [] ∧ off < 0x100 ∧ off % 8 = 0 := by decide

theorem witness_OperandWriteStored :
    ∀ off ∈ [0x10, 0x18, 0x20],
      (hostTurn (.write off 8 0xFFFFFFFFFFFFFFFF) errState).nextTurn = .host ∧
        (hostTurn (.write off 8 0xFFFFFFFFFFFFFFFF) errState).resetAsserted = false ∧
        (hostTurn (.write off 8 0xFFFFFFFFFFFFFFFF) errState).busy = false ∧
        (hostTurn (.write off 8 0xFFFFFFFFFFFFFFFF) errState).program = .write off 8 0xFFFFFFFFFFFFFFFF :: [] := by decide

theorem witness_KeyWriteClearsSkv :
    let s := hostTurn (.write 0x30 8 0x282) (keyed 0);
    s.nextTurn = .host ∧ s.resetAsserted = false ∧ s.busy = false ∧ s.program = .write 0x30 8 0x282 :: [] := by decide

theorem witness_OperandWriteDroppedExactlyWhileBusy :
    ∀ r ∈ [Reg.opa, .opb, .opm, .key], ∀ s ∈ [busyState, errState],
      (hostTurn (.write r.offset 8 7) s).nextTurn = .host ∧ (hostTurn (.write r.offset 8 7) s).resetAsserted = false ∧
        (hostTurn (.write r.offset 8 7) s).program = .write r.offset 8 7 :: [] ∧
        (r = .opa ∨ r = .opb ∨ r = .opm ∨ r = .key) ∧ (hostTurn (.write r.offset 8 7) s).busy = (s == busyState) := by decide

theorem witness_ReadOnlyWriteIgnored :
    ∀ off ∈ [0x08, 0x28, 0x38, 0x60, 0xF8],
      (hostTurn (.write off 8 7) seeded).nextTurn = .host ∧ (hostTurn (.write off 8 7) seeded).resetAsserted = false ∧
        (hostTurn (.write off 8 7) seeded).program = .write off 8 7 :: [] ∧ off < 0x100 ∧ off % 8 = 0 ∧
        (off = 0x08 ∨ off = 0x28 ∨ 0x38 ≤ off) := by decide

/-- One access for each clause: each kind under reset, outside the window, narrow, and misaligned. -/
theorem witness_UnsupportedAccessStops :
    (∀ op ∈ [HostOp.read 0x08 8, .write 0x10 8 7, .wait],
      let s : State := { hostTurn op State.reset with resetAsserted := true };
      s.nextTurn = .host ∧ s.program ≠ [] ∧ s.resetAsserted = true) ∧
      (let s := hostTurn (.write 0x100 8 7) State.reset;
        s.nextTurn = .host ∧ s.program = .write 0x100 8 7 :: [] ∧ s.resetAsserted = false ∧ 0x100 ≤ 0x100) ∧
      (let s := hostTurn (.read 0x10 4) State.reset;
        s.nextTurn = .host ∧ s.program = .read 0x10 4 :: [] ∧ s.resetAsserted = false ∧ 0x10 < 0x100 ∧ 4 ≠ 8) ∧
      (let s := hostTurn (.read 0xFF 8) State.reset;
        s.nextTurn = .host ∧ s.program = .read 0xFF 8 :: [] ∧ s.resetAsserted = false ∧ 0xFF < 0x100 ∧ 0xFF % 8 ≠ 0) := by decide

theorem witness_ByteLanesAreLittleEndian :
    (0xF8 < 0x100 ∧ 0xF8 % 8 = 0 ∧ 7 < 8) ∧ Config.base + 0x100 ≤ Config.base + 0x100 := ⟨by decide, le_refl _⟩

theorem witness_WaitPollsStatus :
    (let s := hostTurn .wait busyState;
      s.nextTurn = .host ∧ s.resetAsserted = false ∧ s.program = .wait :: [] ∧ s.status.getLsbD 0 = true) ∧
      (let s := hostTurn .wait errState;
        s.nextTurn = .host ∧ s.resetAsserted = false ∧ s.program = .wait :: [] ∧ s.status.getLsbD 0 = false) := by decide

theorem witness_RunStatementExecutesItsCommand :
    let s : State := { withOps 2 10 1000 with
      program := (Stmt.run .modexp).expand, latencies := [1], schedule := [.host, .engine, .engine, .host] }
    Instr.modexp.WellFormed ∧ s.resetAsserted = false ∧ s.busy = false ∧ s.err = false ∧
      s.program = (Stmt.run .modexp).expand ++ [] ∧ s.latencies = 1 :: [] ∧
      s.schedule = .host :: (List.replicate (1 + 1) .engine ++ .host :: []) := by decide

theorem witness_ResetZeroesTheBlock :
    ({ busyState with schedule := [.assertReset] } : State).nextTurn = .assertReset ∧
      (let s : State := { State.reset with schedule := [.engine], resetAsserted := true };
        s.nextTurn = .engine ∧ s.resetAsserted = true) ∧
      (let s : State := { State.reset with schedule := [.releaseReset], resetAsserted := true };
        s.nextTurn = .releaseReset ∧ s.resetAsserted = true) := by decide

theorem witness_NopResult : errState.err = true := by decide

theorem witness_ClearResult : cmdOp 0x0101 = 0x01#8 ∧ (0x0101 : Word) ≠ 0x0000000000000001#64 ∧ errState.err = true := by decide

theorem witness_ModexpResult : (withOps 2 10 1).opm ≠ 0#64 ∧ (withOps 2 3 0).opm = 0#64 := by decide

theorem witness_ReferenceAlgorithmsAgree :
    2 ^ 64 - 1 < 2 ^ 64 ∧ 1 ≤ 1 ∧ 1 < 2 ^ 64 ∧ 1 ≤ 2 ^ 64 - 1 := by decide

/-- The clauses in order: OPM = 2, OPM even, and Euler values 0, 1, p - 1 and another (L20). -/
theorem witness_LegendreResult :
    (withOps 2 0 2).opm.toNat < 3 ∧ (withOps 2 0 4).opm.toNat % 2 = 0 ∧
      (∀ at' ∈ [(0, 0), (1, 1), (2, 2)],
        at'.2 = (withOps at'.1 0 3).opa.toNat ^ (((withOps at'.1 0 3).opm.toNat - 1) / 2) % (withOps at'.1 0 3).opm.toNat ∧
          3 ≤ (withOps at'.1 0 3).opm.toNat ∧ (withOps at'.1 0 3).opm.toNat % 2 = 1) ∧
      7 = (withOps 2 0 9).opa.toNat ^ (((withOps 2 0 9).opm.toNat - 1) / 2) % (withOps 2 0 9).opm.toNat ∧
      7 ≠ 0 ∧ 7 ≠ 1 ∧ 7 ≠ (withOps 2 0 9).opm.toNat - 1 := by decide

theorem witness_LegendreIsTheLegendreSymbol : ∃ p : Nat, p.Prime ∧ p ≠ 2 ∧ (withOps 2 0 3).opm.toNat = p :=
  ⟨3, Nat.prime_three, by decide, by decide⟩

theorem witness_DiffieHellmanAgreement : (2069 : Word) ≠ 0#64 := by decide

/-- The clauses in order: B13, B12, B14, B17 and B18. -/
theorem witness_BbsSeedResult :
    (withOps 5 5 11).opb.toNat % 4 ≠ 3 ∧ (withOps 5 7 7).opb = (withOps 5 7 7).opm ∧
      (withOps 14 7 11).opb.toNat ∣ (withOps 14 7 11).opa.toNat ∧
      (∀ s ∈ [withOps 5 4294967311 4294967291, withOps 5 4294967291 4294967279],
        s.opb.toNat % 4 = 3 ∧ s.opm.toNat % 4 = 3 ∧ s.opb ≠ s.opm ∧ ¬ s.opb.toNat ∣ s.opa.toNat ∧ ¬ s.opm.toNat ∣ s.opa.toNat) ∧
      2 ^ 64 ≤ (withOps 5 4294967311 4294967291).opb.toNat * (withOps 5 4294967311 4294967291).opm.toNat ∧
      (withOps 5 4294967291 4294967279).opb.toNat * (withOps 5 4294967291 4294967279).opm.toNat < 2 ^ 64 := by decide

theorem witness_BbsNextResult :
    255 < 256 ∧ State.reset.bbsv = false ∧ seeded.bbsv = true ∧ 64 < 65 ∧ 64 ≤ 64 ∧
      seeded.bbsX.toNat < seeded.bbsN.toNat ∧ 1 + 63 ≤ 64 := by decide

theorem witness_SeededResidueClosedForm :
    ∃ t, (withOps 5 7 11).err = false ∧ exec .bbsSeed (withOps 5 7 11) = .next t ∧ t.err = false ∧ 64 ≤ 64 :=
  ⟨_, by decide, rfl, by decide +kernel, by decide⟩

theorem witness_KeygenResult : State.reset.bbsv = false ∧ seeded.bbsv = true := by decide

theorem witness_KeyschedResult :
    2 ^ 10 ≤ ({ State.reset with key := 0x400 } : State).key.toNat ∧ ({ State.reset with key := 0x3FF } : State).key.toNat < 2 ^ 10 := by
  decide

theorem witness_EncResult_DecResult :
    State.reset.skv = false ∧ (keyed 0x100).skv = true ∧ 2 ^ 8 ≤ (keyed 0x100).opa.toNat ∧ (keyed 0xFF).skv = true ∧
      (keyed 0xFF).opa.toNat < 2 ^ 8 := by decide

theorem witness_FroundResult :
    2 ^ 8 ≤ (withOps 0x100 0 0).opa.toNat ∧ 2 ^ 8 ≤ (withOps 0 0x100 0).opb.toNat ∧ (withOps 0xFF 0xFF 0).opa.toNat < 2 ^ 8 ∧
      (withOps 0xFF 0xFF 0).opb.toNat < 2 ^ 8 ∧ (withOps 0xFF 0xFF 0).tables.legal = true := by decide +kernel

/-- Both indexings of the S-boxes. -/
theorem witness_FfuncResult :
    2 ^ 4 ≤ (withOps 0x10 0 0).opa.toNat ∧ 2 ^ 8 ≤ (withOps 0 0x100 0).opb.toNat ∧
      (∀ ix ∈ [SboxIndex.outer, .split],
        let s : State := { withOps 0xF 0xFF 0 with tables := { defaultTables with sboxIndex := ix } };
        s.opa.toNat < 2 ^ 4 ∧ s.opb.toNat < 2 ^ 8 ∧ s.tables.sboxIndex = ix) := by decide

/-- Every clause at its boundary, for each of the nine rows with the input width R169 gives it. -/
theorem witness_PermResult :
    255 < 256 ∧ 8 < 9 ∧ State.reset.tables.legal = true ∧
      (∀ row ∈ [(0, 8, 0x100, 0xFF), (1, 8, 0x100, 0xFF), (2, 10, 0x400, 0x3FF), (3, 10, 0x400, 0x3FF), (4, 4, 0x10, 0xF),
          (5, 4, 0x10, 0xF), (6, 8, 0x100, 0xFF), (7, 10, 0x400, 0x3FF), (8, 10, 0x400, 0x3FF)],
        row.1 ≤ 8 ∧ 2 ^ row.2.1 ≤ (withOps (BitVec.ofNat 64 row.2.2.1) 0 0).opa.toNat ∧
          (withOps (BitVec.ofNat 64 row.2.2.2) 0 0).opa.toNat < 2 ^ row.2.1) := by decide +kernel

theorem witness_DecryptUndoesEncrypt :
    (keyed 0xFF).tables.legal = true ∧ (keyed 0xFF).skv = true ∧ (keyed 0xFF).opa.toNat < 2 ^ 8 := by decide +kernel

theorem witness_KeyScheduleByTables : defaultTables.legal = true ∧ 0x3FF < 2 ^ 10 := by decide +kernel

theorem witness_EncryptionIsInjective :
    ∃ t u, (keyed 0).tables.legal = true ∧ (keyed 0).skv = true ∧ (0xFF : Word).toNat < 2 ^ 8 ∧
      exec .enc { keyed 0 with opa := 0xFF } = .next t ∧ exec .enc { keyed 0 with opa := 0xFF } = .next u ∧ t.result = u.result :=
  ⟨_, _, by decide +kernel, by decide, by decide, rfl, rfl, rfl⟩

theorem witness_StepKeepsInvariant : ∃ t, Machine.Inv (running 0x01 errState) ∧ step (running 0x01 errState) = .next t :=
  ⟨_, clearing_inv, rfl⟩

theorem witness_ReachableStatusInvariants :
    ∃ t, defaultTables.legal = true ∧
      steps 2 (State.loaded defaultTables (Stmt.run .nop).expand [.host, .engine] [0]) = .next t ∧ t.done = true :=
  ⟨_, by decide +kernel, rfl, by decide⟩

theorem witness_TablesNeverChange : ∃ t, step { busyState with schedule := [.assertReset] } = .next t := ⟨_, rfl⟩

end Sys2Proof.Tests
end

/-! SUPPORT. Family 10_state: the machine invariant and the host's accesses to the register window.

`Inv` is taken apart into what depends on STATUS and the engine (`LifeCycleOk`), on the key registers (`KeyOk`) and on the CSPRNG registers
(`SeedOk`), each a predicate of those values alone. So an update is checked against the parts it touches, and the other parts carry over. -/

namespace Sys2Proof.Machine

/-! ## The parts of the machine invariant -/

/-- What `Inv` says of STATUS and the engine (R22, R23 (a) to (c), R106, R200). -/
structure LifeCycleOk (st : Word) (e : Engine) : Prop where
  busyNotDone : Status.busy st = true → Status.done st = false
  errHasCode : (Status.err st = true → Status.errCode st ≠ 0#4) ∧ (Status.err st = false → Status.errCode st = 0#4)
  errBusyIsClear : Status.err st = true → Status.busy st = true → ∃ lat, e = .busy clearWord lat
  statusReserved : st &&& statusReservedMask = 0#64
  errCodeKnown : (Status.errCode st).toNat ≤ 10
  busyIsEngine : Status.busy st = true ↔ e ≠ .idle
  engineRuns : ∀ w lat, e = .busy w lat → 1 ≤ lat ∧ Status.lastOp st = cmdOp w

/-- What `Inv` says of the tables, SKV, KEY and SUBKEYS (R23 (d), R28, R161 to R163). -/
structure KeyOk (ft : FeistelTables) (skv : Bool) (key subkeys : Word) : Prop where
  tablesLegal : ft.legal = true
  subkeysNarrow : subkeys.toNat < 2 ^ 16
  subkeysOfKey : skv = true →
    key.toNat < 2 ^ 10 ∧ subkeys = toWord (packSubkeys (schedule ft (natField key.toNat 9 0)))

/-- What `Inv` says of BBSV and the CSPRNG registers (R23 (e)). -/
def SeedOk (bbsv : Bool) (p q n x : Word) : Prop :=
  bbsv = true → n.toNat = p.toNat * q.toNat ∧ x.toNat < n.toNat ∧ p.toNat % 4 = 3 ∧ q.toNat % 4 = 3 ∧ p ≠ q

/-- The machine invariant is its three parts and the rule for an asserted reset. -/
theorem inv_iff (s : State) :
    Inv s ↔ LifeCycleOk s.status s.engine ∧ KeyOk s.tables s.skv s.key s.subkeys ∧
      SeedOk s.bbsv s.bbsP s.bbsQ s.bbsN s.bbsX ∧ (s.resetAsserted = true → s.resetBlock = s) := by
  constructor
  · intro h
    exact ⟨⟨h.busyNotDone, h.errHasCode, h.errBusyIsClear, h.statusReserved, h.errCodeKnown, h.busyIsEngine, h.engineRuns⟩,
      ⟨h.tablesLegal, h.subkeysNarrow, h.subkeysOfKey⟩, h.bbsSeeded, h.resetHeld⟩
  · rintro ⟨hl, hk, hs, hr⟩
    exact ⟨⟨hl.busyNotDone, hl.errHasCode, hl.errBusyIsClear, hk.subkeysOfKey, hs⟩, hk.tablesLegal, hl.statusReserved,
      hl.errCodeKnown, hk.subkeysNarrow, hl.busyIsEngine, hl.engineRuns, hr⟩

theorem Inv.lifeCycle {s : State} (h : Inv s) : LifeCycleOk s.status s.engine := ((inv_iff s).mp h).1
theorem Inv.keyOk {s : State} (h : Inv s) : KeyOk s.tables s.skv s.key s.subkeys := ((inv_iff s).mp h).2.1
theorem Inv.seedOk {s : State} (h : Inv s) : SeedOk s.bbsv s.bbsP s.bbsQ s.bbsN s.bbsX := h.bbsSeeded

/-- While reset is not asserted the three parts are all there is to show. -/
theorem inv_of_parts {s : State} (hr : s.resetAsserted = false) (hl : LifeCycleOk s.status s.engine)
    (hk : KeyOk s.tables s.skv s.key s.subkeys) (hs : SeedOk s.bbsv s.bbsP s.bbsQ s.bbsN s.bbsX) : Inv s :=
  (inv_iff s).mpr ⟨hl, hk, hs, fun h => absurd h (by simp [hr])⟩

/-! ## STATUS and the engine -/

section LifeCycle
variable {st st' w : Word} {e : Engine} {lat : Nat}

/-- The part reads only BUSY, DONE, ERR, ERRCODE, LASTOP and the reserved bits of STATUS. -/
theorem LifeCycleOk.of_fields_eq (h : LifeCycleOk st e) (hbusy : Status.busy st' = Status.busy st)
    (hdone : Status.done st' = Status.done st) (herr : Status.err st' = Status.err st)
    (hcode : Status.errCode st' = Status.errCode st) (hop : Status.lastOp st' = Status.lastOp st)
    (hres : st' &&& statusReservedMask = 0#64) : LifeCycleOk st' e := by
  obtain ⟨h1, h2, h3, -, h5, h6, h7⟩ := h
  constructor <;> simpa only [hbusy, hdone, herr, hcode, hop]

theorem LifeCycleOk.withLost (h : LifeCycleOk st e) (b : Bool) : LifeCycleOk (Status.withLost st b) e :=
  h.of_fields_eq (by simp) (by simp) (by simp) (by simp) (by simp)
    (withStatusBit_keeps_reserved st 3 b (by omega) h.statusReserved)

theorem LifeCycleOk.withBbsv (h : LifeCycleOk st e) (b : Bool) : LifeCycleOk (Status.withBbsv st b) e :=
  h.of_fields_eq (by simp) (by simp) (by simp) (by simp) (by simp)
    (withStatusBit_keeps_reserved st 4 b (by omega) h.statusReserved)

theorem LifeCycleOk.withSkv (h : LifeCycleOk st e) (b : Bool) : LifeCycleOk (Status.withSkv st b) e :=
  h.of_fields_eq (by simp) (by simp) (by simp) (by simp) (by simp)
    (withStatusBit_keeps_reserved st 5 b (by omega) h.statusReserved)

/-- ERR and ERRCODE cleared together (R111). -/
theorem LifeCycleOk.clearErr (h : LifeCycleOk st e) :
    LifeCycleOk (Status.withErrCode (Status.withErr st false) 0#4) e where
  busyNotDone := by simpa using h.busyNotDone
  errHasCode := by simp
  errBusyIsClear := by simp
  statusReserved := withErrCode_keeps_reserved _ _ (withStatusBit_keeps_reserved st 2 false (by omega) h.statusReserved)
  errCodeKnown := by simp
  busyIsEngine := by simpa using h.busyIsEngine
  engineRuns := by simpa using h.engineRuns

/-- Completion keeps the reserved bits 0 (R104). -/
theorem completedStatus_keeps_reserved (h : st &&& statusReservedMask = 0#64) :
    completedStatus st &&& statusReservedMask = 0#64 :=
  withStatusBit_keeps_reserved _ 1 _ (by omega) (withStatusBit_keeps_reserved st 0 _ (by omega) h)

/-- STATUS and the engine after a completion, whatever the engine ran (R104). -/
theorem LifeCycleOk.completed (herr : (Status.err st = true → Status.errCode st ≠ 0#4) ∧
      (Status.err st = false → Status.errCode st = 0#4))
    (hres : st &&& statusReservedMask = 0#64) (hcode : (Status.errCode st).toNat ≤ 10) :
    LifeCycleOk (completedStatus st) .idle where
  busyNotDone := by simp [completedStatus]
  errHasCode := by simpa [completedStatus] using herr
  errBusyIsClear := by simp [completedStatus]
  statusReserved := completedStatus_keeps_reserved hres
  errCodeKnown := by simpa [completedStatus] using hcode
  busyIsEngine := by simp [completedStatus]
  engineRuns := by simp

/-- An error's code is 1 to 10 (R200). -/
theorem ErrCode.code_range (c : ErrCode) : c.code ≠ 0#4 ∧ c.code.toNat ≤ 10 := by cases c <;> decide

/-- STATUS and the engine after an error completion (R105). -/
theorem LifeCycleOk.errored (h : LifeCycleOk st e) (c : ErrCode) : LifeCycleOk (erroredStatus st c) .idle := by
  obtain ⟨hne, hle⟩ := c.code_range
  refine .completed (by simp [hne]) ?_ (by simpa using hle)
  exact withErrCode_keeps_reserved _ _ (withStatusBit_keeps_reserved st 2 true (by omega) h.statusReserved)

/-- STATUS and the engine after an acceptance (R101). -/
theorem LifeCycleOk.accepted (h : LifeCycleOk st e) (hw : Status.err st = false ∨ w = clearWord) (hlat : 1 ≤ lat) :
    LifeCycleOk (acceptedStatus st w) (.busy w lat) where
  busyNotDone := by simp [acceptedStatus]
  errHasCode := by simpa [acceptedStatus] using h.errHasCode
  errBusyIsClear := by
    intro herr _
    obtain rfl : w = clearWord := hw.resolve_left (by simpa [acceptedStatus] using herr)
    exact ⟨lat, rfl⟩
  statusReserved := withLastOp_keeps_reserved _ _
    (withStatusBit_keeps_reserved _ 0 _ (by omega) (withStatusBit_keeps_reserved st 1 _ (by omega) h.statusReserved))
  errCodeKnown := by simpa [acceptedStatus] using h.errCodeKnown
  busyIsEngine := by simp [acceptedStatus]
  engineRuns := by
    rintro w' lat' ⟨⟩
    exact ⟨hlat, by simp [acceptedStatus, cmdOp]⟩

/-- One unit of latency counted down while one is left (R106). -/
theorem LifeCycleOk.counted (h : LifeCycleOk st (.busy w lat)) (hlat : 1 < lat) : LifeCycleOk st (.busy w (lat - 1)) where
  busyNotDone := h.busyNotDone
  errHasCode := h.errHasCode
  errBusyIsClear := by
    intro herr hbusy
    obtain ⟨_, hw⟩ := h.errBusyIsClear herr hbusy
    cases hw
    exact ⟨lat - 1, rfl⟩
  statusReserved := h.statusReserved
  errCodeKnown := h.errCodeKnown
  busyIsEngine := by simpa using h.busyIsEngine
  engineRuns := by
    rintro w' lat' ⟨⟩
    exact ⟨by omega, (h.engineRuns w lat rfl).2⟩

/-- STATUS and the engine in the reset state (R230). -/
theorem lifeCycleOk_reset : LifeCycleOk 0#64 .idle where
  busyNotDone := by decide
  errHasCode := by decide
  errBusyIsClear := fun h => absurd h (by decide)
  statusReserved := by decide
  errCodeKnown := by decide
  busyIsEngine := by decide
  engineRuns := by simp

end LifeCycle

/-! ## The key and the CSPRNG registers -/

/-- SKV cleared asks nothing of KEY (R27). -/
theorem KeyOk.clearSkv {ft : FeistelTables} {skv : Bool} {key subkeys : Word} (h : KeyOk ft skv key subkeys) (key' : Word) :
    KeyOk ft false key' subkeys :=
  ⟨h.tablesLegal, h.subkeysNarrow, by simp⟩

/-- A 10-bit key with its schedule in SUBKEYS (R148, R177). -/
theorem keyOk_of_schedule {ft : FeistelTables} {key : Word} (hft : ft.legal = true) (hkey : key.toNat < 2 ^ 10) :
    KeyOk ft true key (toWord (packSubkeys (schedule ft key.toNat))) := by
  have hnarrow := packSubkeys_schedule_lt hft key.toNat
  have hfield : natField key.toNat 9 0 = key.toNat := by simp only [natField]; omega
  refine ⟨hft, ?_, fun _ => ⟨hkey, by rw [hfield]⟩⟩
  rwa [toNat_toWord (by omega)]

/-- A later residue of a seeded generator is a residue (R143, R145). -/
theorem SeedOk.bbsRun {p q n x : Word} (h : SeedOk true p q n x) (c : Nat) :
    SeedOk true p q n (toWord (bbsRun n.toNat c x.toNat 0).1) := by
  obtain ⟨hn, hx, hrest⟩ := h rfl
  have hlt := bbsRun_residue_lt n.toNat c x.toNat 0 hx
  refine fun _ => ⟨hn, ?_, hrest⟩
  rwa [toNat_toWord (hlt.trans n.isLt)]

/-- What a successful BBS_SEED writes is a seeded state (R142). -/
theorem seedOk_of_primes {p q : Word} (hp : p.toNat % 4 = 3) (hq : q.toNat % 4 = 3) (hne : p.toNat ≠ q.toNat)
    (hlt : p.toNat * q.toNat < 2 ^ 64) (y : Nat) :
    SeedOk true p q (toWord (p.toNat * q.toNat)) (toWord (y % (p.toNat * q.toNat))) := by
  have hpos : 0 < p.toNat * q.toNat := Nat.mul_pos (by omega) (by omega)
  have hy : y % (p.toNat * q.toNat) < p.toNat * q.toNat := Nat.mod_lt _ hpos
  refine fun _ => ⟨toNat_toWord hlt, ?_, hp, hq, fun h => hne (congrArg BitVec.toNat h)⟩
  rwa [toNat_toWord hlt, toNat_toWord (hy.trans hlt)]

/-- A register's number put back into a register. -/
@[simp] theorem toWord_toNat (v : Word) : toWord v.toNat = v := by simp [toWord]

/-! ## The invariant under the host agent's bookkeeping -/

section Bookkeeping
variable {s : State} (h : Inv s)
include h

theorem Inv.turnTaken : Inv s.turnTaken :=
  (inv_iff _).mpr ⟨h.lifeCycle, h.keyOk, h.seedOk, fun hr => congrArg State.turnTaken (h.resetHeld hr)⟩

theorem Inv.advance : Inv s.advance :=
  (inv_iff _).mpr ⟨h.lifeCycle, h.keyOk, h.seedOk, fun hr => congrArg State.advance (h.resetHeld hr)⟩

theorem Inv.observe (off : Nat) (v : Word) : Inv (s.observe off v) :=
  (inv_iff _).mpr ⟨h.lifeCycle, h.keyOk, h.seedOk, fun hr => congrArg (State.observe · off v) (h.resetHeld hr)⟩

end Bookkeeping

/-! ## The invariant under reset -/

/-- The reset state meets the invariant, whether the reset input is still asserted or released (R230, R231). -/
theorem inv_of_resetBlock {s : State} (hft : s.tables.legal = true) (b : Bool) :
    Inv { s.resetBlock with resetAsserted := b } := by
  have hkey : KeyOk s.tables (Status.skv 0#64) 0#64 0#64 := ⟨hft, by decide, fun h => absurd h (by decide)⟩
  have hseed : SeedOk (Status.bbsv 0#64) 0#64 0#64 0#64 0#64 := fun h => absurd h (by decide)
  exact (inv_iff _).mpr ⟨lifeCycleOk_reset, hkey, hseed, fun _ => rfl⟩

theorem Inv.releaseReset {s : State} (h : Inv s) : Inv s.releaseReset := by
  unfold State.releaseReset
  split
  · exact inv_of_resetBlock h.tablesLegal false
  · exact h

/-! ## The invariant under the host's writes -/

/-- The acceptance condition of R101, as a proposition. -/
theorem accepts_iff (s : State) (w : Word) :
    s.accepts w = true ↔ s.busy = false ∧ (s.err = false ∨ w = clearWord) := by
  simp [State.accepts]

/-- Every command takes at least one engine step (R101). -/
theorem one_le_nextLatency (s : State) (w : Word) : 1 ≤ s.nextLatency w := by
  unfold State.nextLatency
  split <;> omega

section Writes
variable {s : State} (h : Inv s) (hr : s.resetAsserted = false)
include h hr

theorem Inv.lose : Inv s.lose :=
  inv_of_parts hr (h.lifeCycle.withLost true) (by simpa [State.skv] using h.keyOk) (by simpa [State.bbsv] using h.seedOk)

theorem Inv.accept {w : Word} (hw : s.accepts w = true) : Inv (s.accept w) := by
  obtain ⟨-, hword⟩ := (accepts_iff s w).mp hw
  refine inv_of_parts hr (h.lifeCycle.accepted hword (one_le_nextLatency s w)) ?_ ?_
  · simpa [State.skv, acceptedStatus] using h.keyOk
  · simpa [State.bbsv, acceptedStatus] using h.seedOk

/-- A write of KEY clears SKV, so the schedule need not match (R27). -/
theorem Inv.writeKey (v : Word) : Inv { s with key := v, status := Status.withSkv s.status false } :=
  inv_of_parts hr (h.lifeCycle.withSkv false) (by simpa [State.skv] using h.keyOk.clearSkv v)
    (by simpa [State.bbsv] using h.seedOk)

theorem Inv.writeAt (off : Nat) (v : Word) : Inv (s.writeAt off v) := by
  rcases writeAt_cases s off v with hw | hw | ⟨ha, hw⟩ | ⟨-, hw | hw | hw⟩ | ⟨-, hw⟩ <;> rw [hw]
  · exact h
  · exact h.lose hr
  · exact h.accept hr ha
  · exact inv_of_parts hr h.lifeCycle h.keyOk h.seedOk
  · exact inv_of_parts hr h.lifeCycle h.keyOk h.seedOk
  · exact inv_of_parts hr h.lifeCycle h.keyOk h.seedOk
  · exact h.writeKey hr v

end Writes

/-! ## The invariant under the engine -/

section Completion
variable {s : State} (h : Inv s) (hr : s.resetAsserted = false)
include h hr

theorem Inv.count {w : Word} {lat : Nat} (he : s.engine = .busy w lat) (hlat : 1 < lat) :
    Inv { s with engine := .busy w (lat - 1) } := by
  have hlife : LifeCycleOk s.status (.busy w lat) := he ▸ h.lifeCycle
  exact inv_of_parts hr (hlife.counted hlat) h.keyOk h.seedOk

theorem Inv.takeError (e : ErrCode) : Inv (s.takeError e) := by
  refine inv_of_parts hr (h.lifeCycle.errored e) ?_ ?_
  · simpa [State.skv, erroredStatus, completedStatus] using h.keyOk
  · simpa [State.bbsv, erroredStatus, completedStatus] using h.seedOk

theorem Inv.finish : Inv s.finish := by
  refine inv_of_parts hr (.completed h.errHasCode h.statusReserved h.errCodeKnown) ?_ ?_
  · simpa [State.skv, completedStatus] using h.keyOk
  · simpa [State.bbsv, completedStatus] using h.seedOk

theorem Inv.setResult (v : Word) : Inv { s with result := v } :=
  inv_of_parts hr h.lifeCycle h.keyOk h.seedOk

/-- The commit set of CLEAR, before the completion (R111). -/
theorem Inv.commit_clear : Inv (s.commit clearCommit) := by
  refine inv_of_parts hr (h.lifeCycle.clearErr.withLost false) ?_ ?_
  · simpa [State.skv, clearCommit] using h.keyOk
  · simpa [State.bbsv, clearCommit] using h.seedOk

/-- The CSPRNG registers of a successful BBS_SEED, with BBSV set (R142). -/
theorem Inv.setSeed (hp : s.b % 4 = 3) (hq : s.m % 4 = 3) (hne : s.b ≠ s.m) (hlt : s.b * s.m < 2 ^ 64) (y : Nat) :
    Inv { s with
      bbsP := toWord s.b
      bbsQ := toWord s.m
      bbsN := toWord (s.b * s.m)
      bbsX := toWord (y % (s.b * s.m))
      status := Status.withBbsv s.status true } :=
  inv_of_parts hr (h.lifeCycle.withBbsv true) (by simpa [State.skv] using h.keyOk)
    (by simpa [State.bbsv, State.b, State.m] using seedOk_of_primes hp hq hne hlt y)

/-- BBS_X moved on by a run of the generator (R145, R148). -/
theorem Inv.setResidue (hv : s.bbsv = true) (c : Nat) : Inv { s with bbsX := toWord (bbsRun s.n c s.x 0).1 } := by
  have hseed : SeedOk true s.bbsP s.bbsQ s.bbsN s.bbsX := hv ▸ h.seedOk
  refine inv_of_parts hr h.lifeCycle h.keyOk ?_
  change SeedOk s.bbsv _ _ _ _
  exact hv.symm ▸ hseed.bbsRun c

/-- A 10-bit KEY with its schedule in SUBKEYS, with SKV set (R148, R177). -/
theorem Inv.setKey {key : Word} (hkey : key.toNat < 2 ^ 10) :
    Inv { s with
      key := key
      subkeys := toWord (packSubkeys (schedule s.tables key.toNat))
      status := Status.withSkv s.status true } :=
  inv_of_parts hr (h.lifeCycle.withSkv true) (by simpa [State.skv] using keyOk_of_schedule h.tablesLegal hkey)
    (by simpa [State.bbsv] using h.seedOk)

/-- Every command keeps the invariant: its commit set does, and then its completion. -/
theorem Inv.execCase {i : Instr} {t : State} (hx : ExecCase i s t) : Inv t := by
  cases hx with
  | error _ _ e => exact h.takeError hr e
  | nop => exact h.finish hr
  | clear => exact (h.commit_clear hr).finish hr
  | bbsSeed _ hb hm hne hlt =>
    exact ((h.setSeed hr hb hm hne hlt (s.a * s.a)).setResult hr _).finish hr
  | bbsNext _ c hv =>
    exact ((h.setResidue hr hv c).setResult hr _).finish hr
  | keygen _ hv =>
    have hres := h.setResidue hr hv 10
    have hbits : (bbsRun s.n 10 s.x 0).2 < 2 ^ 10 := by simpa using bbsRun_lt s.n 10 s.x 0
    generalize bbsRun s.n 10 s.x 0 = run at hres hbits ⊢
    have hword : (toWord run.2).toNat = run.2 := toNat_toWord (by omega)
    have hkey := hres.setKey hr (key := toWord run.2) (by omega)
    rw [hword] at hkey
    exact (hkey.setResult hr _).finish hr
  | keysched _ hk => exact ((h.setKey hr (key := s.key) hk).setResult hr _).finish hr
  | _ => exact (h.setResult hr _).finish hr

end Completion

/-! ## The invariant along a run -/

/-- One step keeps the invariant, by the ways a step can answer. -/
theorem Inv.step {s t : State} (h : Inv s) (hst : step s = .next t) : Inv t := by
  have hs := h.turnTaken
  cases step_cases hst with
  | hostIdle | engineHeld | engineIdle => exact hs
  | hostRead | hostWaited => exact hs.advance.observe _ _
  | hostWrite _ off v _ _ hr => exact hs.advance.writeAt hr off v
  | hostWaits => exact hs.observe _ _
  | engineCounts _ hr w lat he hl => exact hs.count hr he hl
  | engineCompletes _ hr _ _ _ _ _ _ _ hx => exact hs.execCase hr (execCase_of_next hx)
  | engineIllegal _ hr => exact hs.takeError hr .illegal
  | assertReset => exact inv_of_resetBlock hs.tablesLegal true
  | releaseReset => exact hs.releaseReset

/-- Settles O51, by the inversion of `step` and one lemma per way a step can answer. -/
theorem stepKeepsInvariant : Obligations.StepKeepsInvariant := by
  unfold Obligations.StepKeepsInvariant
  exact fun _ _ h hst => h.step hst

/-- The default record is a legal configuration (R160 to R163). -/
theorem defaultTables_legal : defaultTables.legal = true := by decide +kernel

/-- A machine loaded with a legal record meets the invariant (log entry 4). -/
theorem inv_loaded {ft : FeistelTables} (hft : ft.legal = true) (p : List HostOp) (sch : List Turn) (lats : List Nat) :
    Inv (State.loaded ft p sch lats) :=
  inv_of_resetBlock (s := State.loaded ft p sch lats) hft false

/-- Settles O52: reset is the machine loaded with the default record and nothing else. -/
theorem resetMeetsInvariant : Obligations.ResetMeetsInvariant := by
  unfold Obligations.ResetMeetsInvariant
  exact inv_loaded defaultTables_legal [] [] []

/-- Settles O53: the loaded machine meets the invariant and every step of a run keeps it. -/
theorem reachableStatusInvariants : Obligations.ReachableStatusInvariants := by
  unfold Obligations.ReachableStatusInvariants
  intro ft p sch lats k t hft hrun
  have hinv : Inv t := steps_induction (fun _ _ h hst => h.step hst) (inv_loaded hft p sch lats) hrun
  exact hinv.toStatusInvariants

/-! ## The tables -/

/-- No write of the window reaches the tables (R29). -/
@[simp] theorem writeAt_tables (s : State) (off : Nat) (v : Word) : (s.writeAt off v).tables = s.tables := by
  rcases writeAt_cases s off v with hw | hw | ⟨-, hw⟩ | ⟨-, hw | hw | hw⟩ | ⟨-, hw⟩ <;> rw [hw] <;> rfl

/-- Releasing reset keeps the tables (R231). -/
@[simp] theorem State.releaseReset_tables (s : State) : s.releaseReset.tables = s.tables := by
  unfold State.releaseReset
  split <;> rfl

/-- Settles O54, by the inversion of `step`. -/
theorem tablesNeverChange : Obligations.TablesNeverChange := by
  unfold Obligations.TablesNeverChange
  intro s t hst
  cases step_cases hst with
  | hostWrite _ off v => exact writeAt_tables _ off v
  | engineCompletes _ _ _ _ _ _ _ _ _ hx =>
    obtain ⟨-, -, -, htables, -⟩ := (execCase_of_next hx).keeps
    exact htables
  | releaseReset => exact State.releaseReset_tables _
  | _ => rfl

/-! ## The host's accesses -/

/-- The defined register of a slot stands at the slot's offset (R20). -/
theorem offset_of_ofSlot {n : Nat} {r : Reg} (h : Reg.ofSlot n = some r) : r.offset = 8 * n := by
  unfold Reg.ofSlot at h
  split at h <;> cases h <;> rfl

/-- Slots 12 to 31 are reserved (R20). -/
theorem ofSlot_eq_none {n : Nat} (h : 12 ≤ n) : Reg.ofSlot n = none := by
  cases hr : Reg.ofSlot n with
  | none => rfl
  | some r =>
    have hoff := offset_of_ofSlot hr
    have hlast : r.offset ≤ 0x58 := by cases r <;> decide
    omega

@[simp] theorem readAt_offset (s : State) (r : Reg) : s.readAt r.offset = s.readReg r := by
  rw [State.readAt, ofSlot_offset]

@[simp] theorem writeAt_offset (s : State) (r : Reg) (v : Word) : s.writeAt r.offset v = s.writeReg v r := by
  rw [State.writeAt, ofSlot_offset]

/-- A reserved slot reads 0 (R61). -/
theorem readAt_reserved (s : State) {off : Nat} (h : 0x60 ≤ off) : s.readAt off = 0#64 := by
  rw [State.readAt, ofSlot_eq_none (by omega)]

/-- A write of a read-only register or a reserved slot is ignored (R22, R61, R65). -/
theorem writeAt_readOnly (s : State) {off : Nat} (v : Word) (hal : off % 8 = 0) (h : off = 0x08 ∨ off = 0x28 ∨ 0x38 ≤ off) :
    s.writeAt off v = s := by
  unfold State.writeAt
  cases hslot : Reg.ofSlot (off / 8) with
  | none => rfl
  | some r =>
    have hoff := offset_of_ofSlot hslot
    cases r with
    | cmd | opa | opb | opm | key => simp only [Reg.offset] at hoff; omega
    | _ => rfl

/-- The registers whose writes R31 drops while a command runs. -/
theorem writeReg_busy {s : State} (hb : s.busy = true) {r : Reg} (hreg : r = .opa ∨ r = .opb ∨ r = .opm ∨ r = .key) (v : Word) :
    s.writeReg v r = s.lose := by
  rcases hreg with rfl | rfl | rfl | rfl <;> exact if_pos hb

section Accepted
variable {s : State} (hb : s.busy = false) (v : Word)
include hb

theorem writeReg_opa : s.writeReg v .opa = { s with opa := v } := if_neg (by simp [hb])
theorem writeReg_opb : s.writeReg v .opb = { s with opb := v } := if_neg (by simp [hb])
theorem writeReg_opm : s.writeReg v .opm = { s with opm := v } := if_neg (by simp [hb])
theorem writeReg_key : s.writeReg v .key = { s with key := v, status := Status.withSkv s.status false } := if_neg (by simp [hb])

/-- An accepted write stores the value and touches neither LOST nor the engine (R31). -/
theorem writeReg_accepted {r : Reg} (hreg : r = .opa ∨ r = .opb ∨ r = .opm ∨ r = .key) :
    (s.writeReg v r).readReg r = v ∧ (s.writeReg v r).lost = s.lost ∧ (s.writeReg v r).engine = s.engine := by
  rcases hreg with rfl | rfl | rfl | rfl
  · rw [writeReg_opa hb]; exact ⟨rfl, rfl, rfl⟩
  · rw [writeReg_opb hb]; exact ⟨rfl, rfl, rfl⟩
  · rw [writeReg_opm hb]; exact ⟨rfl, rfl, rfl⟩
  · rw [writeReg_key hb]; exact ⟨rfl, Status.lost_withSkv s.status false, rfl⟩

end Accepted

section HostTurn
variable {s : State} (ht : s.nextTurn = .host) (hr : s.resetAsserted = false) {off : Nat} {v : Word} {rest : List HostOp}
include ht hr

/-- A supported read, as a whole step (R65). -/
theorem step_read (hp : s.program = .read off 8 :: rest) (hoff : off < 0x100) (hal : off % 8 = 0) :
    step s = .next { s.turnTaken with program := rest, observed := s.observed ++ [⟨off, s.readAt off⟩] } := by
  rw [step_host ht, hostStep_read (s := s.turnTaken) hp hr hoff hal, State.advance, State.turnTaken_program, hp]
  rfl

/-- A supported write, as a whole step (R65). -/
theorem step_write (hp : s.program = .write off 8 v :: rest) (hoff : off < 0x100) (hal : off % 8 = 0) :
    step s = .next (State.writeAt { s.turnTaken with program := rest } off v) := by
  rw [step_host ht, hostStep_write (s := s.turnTaken) hp hr hoff hal, State.advance, State.turnTaken_program, hp]
  rfl

/-- A write of a defined register, as a whole step (R20, R65). -/
theorem step_writeReg {r : Reg} (hp : s.program = .write r.offset 8 v :: rest) :
    step s = .next (State.writeReg { s.turnTaken with program := rest } v r) := by
  have hin : r.offset < 0x100 ∧ r.offset % 8 = 0 := by cases r <;> decide
  rw [step_write ht hr hp hin.1 hin.2, writeAt_offset]

end HostTurn

/-- Settles O20: the read is the step, and each clause is the register of its slot. -/
theorem readReturnsTheSlot : Obligations.ReadReturnsTheSlot := by
  unfold Obligations.ReadReturnsTheSlot
  intro s off rest ht hr hp hoff hal
  refine ⟨s.readAt off, step_read ht hr hp hoff hal, ?_⟩
  have hreg : ∀ r : Reg, off = r.offset → s.readAt off = s.readReg r := by
    rintro r rfl
    exact readAt_offset s r
  exact ⟨hreg .cmd, hreg .status, hreg .opa, hreg .opb, hreg .opm, hreg .result, hreg .key, hreg .subkeys, hreg .bbsP,
    hreg .bbsQ, hreg .bbsN, hreg .bbsX, readAt_reserved s⟩

/-- Settles O21, register by register. -/
theorem operandWriteStored : Obligations.OperandWriteStored := by
  unfold Obligations.OperandWriteStored
  intro s v rest ht hr hb
  have hb' : State.busy { s.turnTaken with program := rest } = false := hb
  refine ⟨fun hp => ?_, fun hp => ?_, fun hp => ?_⟩
  · rw [step_writeReg ht hr (r := .opa) hp, writeReg_opa hb']
  · rw [step_writeReg ht hr (r := .opb) hp, writeReg_opb hb']
  · rw [step_writeReg ht hr (r := .opm) hp, writeReg_opm hb']

/-- Settles O22: an accepted write of KEY is one update of the state, and its STATUS is a mask of the old one. -/
theorem keyWriteClearsSkv : Obligations.KeyWriteClearsSkv := by
  unfold Obligations.KeyWriteClearsSkv
  intro s v rest ht hr hb hp
  have hb' : State.busy { s.turnTaken with program := rest } = false := hb
  rw [step_writeReg ht hr (r := .key) hp, writeReg_key hb', withSkv_false_eq]
  rfl

/-- Settles O23, by whether BUSY is set. -/
theorem operandWriteDroppedExactlyWhileBusy : Obligations.OperandWriteDroppedExactlyWhileBusy := by
  unfold Obligations.OperandWriteDroppedExactlyWhileBusy
  intro s r v rest ht hr hp hreg
  refine ⟨fun hb => ?_, fun hb => ?_⟩
  · have hb' : State.busy { s.turnTaken with program := rest } = true := hb
    rw [step_writeReg ht hr hp, writeReg_busy hb' hreg, State.lose, withLost_eq]
    rfl
  · exact ⟨_, step_writeReg ht hr hp, writeReg_accepted (s := { s.turnTaken with program := rest }) hb v hreg⟩

/-- Settles O24: the write is a step that reaches no writable slot. -/
theorem readOnlyWriteIgnored : Obligations.ReadOnlyWriteIgnored := by
  unfold Obligations.ReadOnlyWriteIgnored
  intro s off v rest ht hr hp hoff hal hro
  rw [step_write ht hr hp hoff hal, writeAt_readOnly _ v hal hro]

end Sys2Proof.Machine

/-! SUPPORT. Family 20_memory: which bus accesses stop the machine, that nothing else does, and the byte lanes of the window.

An access stops by the first of its problems (`State.accessProblem`), so a stop of the machine is one lemma per problem and one lemma that
carries the problem to the step. -/

namespace Sys2Proof.Machine

/-! ## Unsupported accesses -/

/-- Under reset every access is refused (R232), before anything else is looked at (log entry 17). -/
theorem accessProblem_reset {s : State} (hr : s.resetAsserted = true) (off width : Nat) :
    s.accessProblem off width = some (.refused .accessDuringReset) := if_pos hr

section Released
variable {s : State} (hr : s.resetAsserted = false) {off : Nat}
include hr

/-- Outside the window an access of any width faults (R60, R61; log entry 8). -/
theorem accessProblem_outside (hoff : 0x100 ≤ off) (width : Nat) :
    s.accessProblem off width = some (.fault .accessOutsideWindow) := by
  rw [State.accessProblem, hr, if_neg Bool.false_ne_true, if_pos hoff]

/-- Inside the window an access that is not 8 bytes wide and aligned is refused (R63). -/
theorem accessProblem_unsupported (hoff : off < 0x100) {width : Nat} (h : width ≠ 8 ∨ off % 8 ≠ 0) :
    s.accessProblem off width = some (.refused .unsupportedAccess) := by
  rw [State.accessProblem, hr, if_neg Bool.false_ne_true, if_neg (Nat.not_le.mpr hoff), if_pos h]

end Released

section Problem
variable {s : State} (ht : s.nextTurn = .host) {o : Outcome}
include ht

/-- A read or a write with a problem stops the machine with that problem. -/
theorem step_accessProblem {off width : Nat} {v : Word} {rest : List HostOp}
    (hp : s.program = .read off width :: rest ∨ s.program = .write off width v :: rest) (h : s.accessProblem off width = some o) :
    step s = o := by
  have hadv : s.turnTaken.advance.accessProblem off width = some o := (accessProblem_congr rfl off width).trans h
  rw [step_host ht, hostStep, State.turnTaken_program]
  rcases hp with hp | hp <;> rw [hp]
  · simp only [busRead, hadv]
  · simp only [busWrite, hadv]

/-- The STATUS read of a `wait` with a problem stops the machine with that problem (R89). -/
theorem step_wait_accessProblem {rest : List HostOp} (hp : s.program = .wait :: rest)
    (h : s.accessProblem Reg.status.offset 8 = some o) : step s = o := by
  have htaken : s.turnTaken.accessProblem Reg.status.offset 8 = some o := (accessProblem_congr rfl _ 8).trans h
  rw [step_host ht, hostStep, State.turnTaken_program, hp]
  simp only [waitPoll, htaken]

end Problem

/-- Settles O25: each stop is the access's first problem. -/
theorem unsupportedAccessStops : Obligations.UnsupportedAccessStops := by
  unfold Obligations.UnsupportedAccessStops
  refine ⟨fun s ht hne hr => ?_, fun s off width v rest ht hp hr => ⟨fun hoff => ?_, fun hoff h => ?_⟩⟩
  · cases hp : s.program with
    | nil => exact absurd hp hne
    | cons op rest =>
      cases op with
      | read off width => exact step_accessProblem ht (v := 0#64) (.inl hp) (accessProblem_reset hr off width)
      | write off width v => exact step_accessProblem ht (.inr hp) (accessProblem_reset hr off width)
      | wait => exact step_wait_accessProblem ht hp (accessProblem_reset hr _ 8)
  · exact step_accessProblem ht hp (accessProblem_outside hr hoff width)
  · exact step_accessProblem ht hp (accessProblem_unsupported hr hoff h)

/-! ## Every other step has a next state -/

/-- A completion has a next state, of a legal word and of an illegal one (R103, R202). -/
theorem completeWord_next (w : Word) (s : State) : ∃ t, completeWord w s = .next t := by
  unfold completeWord
  cases decodeWord w with
  | ok i =>
    obtain ⟨t, hx, -⟩ := exec_cases i s
    exact ⟨t, hx⟩
  | error e => exact ⟨_, rfl⟩

/-- The engine never stops the machine (R106). -/
theorem engineStep_next (s : State) : ∃ t, engineStep s = .next t := by
  unfold engineStep
  split
  case isTrue => exact ⟨_, rfl⟩
  case isFalse =>
    cases s.engine with
    | idle => exact ⟨_, rfl⟩
    | busy w lat =>
      by_cases hl : 1 < lat
      · exact ⟨_, if_pos hl⟩
      · obtain ⟨t, h⟩ := completeWord_next w s
        exact ⟨t, (if_neg hl).trans h⟩

/-- The host's step has a next state, or reset is asserted with an access pending, or the pending access is outside the window, of another
width than 8 bytes, or misaligned (R60, R63, R232). -/
theorem step_host_next_or_undefined {s : State} (ht : s.nextTurn = .host) :
    (∃ t, step s = .next t) ∨ (s.resetAsserted = true ∧ s.program ≠ []) ∨
      ∃ (off width : Nat) (v : Word) (rest : List HostOp),
        (s.program = .read off width :: rest ∨ s.program = .write off width v :: rest) ∧
        (0x100 ≤ off ∨ width ≠ 8 ∨ off % 8 ≠ 0) := by
  cases hp : s.program with
  | nil =>
    obtain ⟨t, h, -⟩ := step_of_program_nil hp
    exact .inl ⟨t, h⟩
  | cons op rest =>
    cases hr : s.resetAsserted with
    | true => exact .inr (.inl ⟨rfl, List.cons_ne_nil op rest⟩)
    | false =>
      cases op with
      | read off width =>
        by_cases hbad : 0x100 ≤ off ∨ width ≠ 8 ∨ off % 8 ≠ 0
        · exact .inr (.inr ⟨off, width, 0#64, rest, .inl rfl, hbad⟩)
        · obtain ⟨hoff, rfl, hal⟩ : off < 0x100 ∧ width = 8 ∧ off % 8 = 0 := by omega
          exact .inl ⟨_, step_read ht hr hp hoff hal⟩
      | write off width v =>
        by_cases hbad : 0x100 ≤ off ∨ width ≠ 8 ∨ off % 8 ≠ 0
        · exact .inr (.inr ⟨off, width, v, rest, .inr rfl, hbad⟩)
        · obtain ⟨hoff, rfl, hal⟩ : off < 0x100 ∧ width = 8 ∧ off % 8 = 0 := by omega
          exact .inl ⟨_, step_write ht hr hp hoff hal⟩
      | wait => exact .inl ⟨_, (step_host ht).trans (hostStep_wait (s := s.turnTaken) hp hr)⟩

/-- Settles O26, by whose turn it is: only the host's step can stop. -/
theorem stopsOnlyOnUndefinedAccess : Obligations.StopsOnlyOnUndefinedAccess := by
  unfold Obligations.StopsOnlyOnUndefinedAccess
  intro s
  cases ht : s.nextTurn with
  | host => exact (step_host_next_or_undefined ht).imp_right fun h => ⟨rfl, h⟩
  | engine =>
    obtain ⟨t, h⟩ := engineStep_next s.turnTaken
    exact .inl ⟨t, (step_engine ht).trans h⟩
  | assertReset => exact .inl ⟨s.turnTaken.assertReset, by rw [step, ht]; rfl⟩
  | releaseReset => exact .inl ⟨s.turnTaken.releaseReset, by rw [step, ht]; rfl⟩

/-! ## Byte lanes -/

/-- BASE is aligned to the window (R61). -/
theorem base_mod_window : Config.base % 0x100 = 0 := Nat.mul_mod_right 0x100 Config.baseWindow

/-- Byte `j` of the slot at `off` is lane `j` of what a read at `off` returns (R62). -/
theorem windowByte_slot (s : State) {off j : Nat} (hoff : off < 0x100) (hal : off % 8 = 0) (hj : j < 8) :
    s.windowByte (Config.base + off + j) = some (laneByte (s.readAt off) j) := by
  have hin : Config.base ≤ Config.base + off + j ∧ Config.base + off + j < Config.base + 0x100 := by omega
  have hrel : Config.base + off + j - Config.base = off + j := by omega
  have hslot : (off + j) / 8 * 8 = off := by omega
  have hlane : (off + j) % 8 = j := by omega
  rw [State.windowByte, if_pos hin, hrel, hslot, hlane]

/-- The block claims no address outside its window (R61). -/
theorem windowByte_outside (s : State) {addr : Nat} (h : addr < Config.base ∨ Config.base + 0x100 ≤ addr) :
    s.windowByte addr = none := if_neg (by omega)

/-- Settles O27: the alignment of BASE, the lanes of a slot, and the window's bounds. -/
theorem byteLanesAreLittleEndian : Obligations.ByteLanesAreLittleEndian := by
  unfold Obligations.ByteLanesAreLittleEndian
  exact ⟨base_mod_window, fun s _ _ => windowByte_slot s, fun s _ => windowByte_outside s⟩

end Sys2Proof.Machine

/-! SUPPORT. Family 30_encoding: the decoder and the encoder are inverse to each other, what a completing command may write, and the
host's `wait` and `run` statements.

Every row of the opcode map selects exactly the words of the commands it builds (`selects_iff_encode`), and no word selects two rows
(`selects_unique`). The statements about the decoder follow from these two. -/

namespace Sys2Proof

/-! ## The words of the well-formed commands -/

/-- An opcode fills the 8-bit OP field (R80, R82). -/
theorem Instr.opcode_lt (i : Instr) : i.opcode < 2 ^ 8 := by cases i <;> simp [Instr.opcode]

/-- A well-formed argument fits the 8-bit ARG field (R80, R81). -/
theorem Instr.argument_lt {i : Instr} (h : i.WellFormed) : i.argument < 2 ^ 8 := by
  cases i with
  | bbsNext count => exact of_decide_eq_true h
  | perm sel => exact of_decide_eq_true h
  | _ => exact Nat.two_pow_pos 8

/-- The fields of a well-formed command's word, for every command at once (R80, R88). -/
theorem encode_fields {i : Instr} (h : i.WellFormed) :
    (cmdOp (encode i)).toNat = i.opcode ∧ cmdArg (encode i) = i.argument ∧ cmdRsvd (encode i) = 0#48 :=
  Laws.fields_of_arg_op i.argument i.opcode (Instr.argument_lt h) i.opcode_lt

/-- The word of a well-formed command lies in the 2^16 words with RSVD = 0 (R80). -/
theorem encode_toNat_lt {i : Instr} (h : i.WellFormed) : (encode i).toNat < 2 ^ 16 := by
  have harg := Instr.argument_lt h
  have hop := i.opcode_lt
  simp only [encode, BitVec.toNat_ofNat]
  omega

/-! ## The rows of the opcode map -/

/-- A row without an argument selects the one word of its command (R82). -/
theorem wholeRow_selects_iff {i : Instr} (harg : i.argument = 0) (w : Word) :
    (OpcodeRow.mk (BitVec.ofNat 64 i.opcode) wholeWordMask fun _ => i).selects w = true ↔ w = encode i := by
  rw [wholeRow_selects, beq_iff_eq, encode, harg, Nat.zero_mul, Nat.zero_add]

/-- A row selects a word exactly when the word is that of the command the row builds from its ARG (R82, R88). -/
theorem selects_iff_encode {r : OpcodeRow} (hr : r ∈ opcodeTable) (w : Word) :
    r.selects w = true ↔ w = encode (r.build (cmdArg w)) := by
  revert r
  simp only [opcodeTable, List.forall_mem_cons]
  exact ⟨wholeRow_selects_iff (i := .nop) rfl w, wholeRow_selects_iff (i := .clear) rfl w,
    wholeRow_selects_iff (i := .modexp) rfl w, wholeRow_selects_iff (i := .legendre) rfl w,
    wholeRow_selects_iff (i := .bbsSeed) rfl w, argRow_selects_iff 0x21 (by decide) w .bbsNext,
    wholeRow_selects_iff (i := .keygen) rfl w, wholeRow_selects_iff (i := .keysched) rfl w,
    wholeRow_selects_iff (i := .enc) rfl w, wholeRow_selects_iff (i := .dec) rfl w,
    wholeRow_selects_iff (i := .fround) rfl w, wholeRow_selects_iff (i := .ffunc) rfl w,
    argRow_selects_iff 0x38 (by decide) w .perm, nofun⟩

/-- An 8-bit argument makes a row's command well formed (R80, R81). -/
theorem build_wellFormed {r : OpcodeRow} (hr : r ∈ opcodeTable) {arg : Nat} (harg : arg < 2 ^ 8) : (r.build arg).WellFormed := by
  revert r
  simp only [opcodeTable, List.forall_mem_cons]
  simpa [Instr.WellFormed, Instr.wellFormed] using harg

/-- A row builds commands of its own OP field (R82). -/
theorem build_opcode {r : OpcodeRow} (hr : r ∈ opcodeTable) (arg : Nat) : (r.build arg).opcode = (cmdOp r.pattern).toNat := by
  revert r
  simp only [opcodeTable, List.forall_mem_cons]
  exact ⟨rfl, rfl, rfl, rfl, rfl, rfl, rfl, rfl, rfl, rfl, rfl, rfl, rfl, nofun⟩

/-- Every command has its row (R82). -/
theorem exists_row (i : Instr) : ∃ r ∈ opcodeTable, r.build i.argument = i := by
  cases i <;> simp [opcodeTable, Instr.argument]

/-- No two rows have the same OP field (R82). -/
theorem opcodeTable_ops_nodup : (opcodeTable.map fun r => cmdOp r.pattern).Nodup := by decide

theorem cmdArg_lt (w : Word) : cmdArg w < 2 ^ 8 := (w.extractLsb' 8 8).isLt

/-- A word has the OP field of every row it selects (R82). -/
theorem cmdOp_of_selects {r : OpcodeRow} (hr : r ∈ opcodeTable) {w : Word} (h : r.selects w = true) :
    cmdOp w = cmdOp r.pattern := by
  obtain ⟨hop, -⟩ := encode_fields (build_wellFormed hr (cmdArg_lt w))
  rw [← (selects_iff_encode hr w).mp h, build_opcode hr] at hop
  exact BitVec.eq_of_toNat_eq hop

/-- No word selects two rows (R87). -/
theorem selects_unique {r r' : OpcodeRow} (hr : r ∈ opcodeTable) (hr' : r' ∈ opcodeTable) {w : Word} (h : r.selects w = true)
    (h' : r'.selects w = true) : r = r' :=
  List.inj_on_of_nodup_map opcodeTable_ops_nodup hr hr' ((cmdOp_of_selects hr h).symm.trans (cmdOp_of_selects hr' h'))

/-! ## The decoder -/

/-- A word decodes by any row it selects (R82, R87). -/
theorem decodeWord_of_selects {r : OpcodeRow} (hr : r ∈ opcodeTable) {w : Word} (h : r.selects w = true) :
    decodeWord w = .ok (r.build (cmdArg w)) := by
  cases hf : opcodeTable.find? fun r => r.selects w with
  | none => exact absurd h (List.find?_eq_none.mp hf r hr)
  | some r' =>
    have hs : r'.selects w = true := List.find?_some (p := fun r : OpcodeRow => r.selects w) hf
    obtain rfl := selects_unique (List.mem_of_find?_eq_some hf) hr hs h
    simp only [decodeWord, hf]

/-- A word that selects no row is illegal (R83, R87). -/
theorem decodeWord_of_not_selects {w : Word} (h : ∀ r ∈ opcodeTable, ¬ r.selects w = true) :
    decodeWord w = .error (illegalReason w) := by
  simp only [decodeWord, List.find?_eq_none.mpr h]

/-- The decoder inverts the encoder on well-formed commands (R80, R82, R88). -/
theorem decodeWord_encode {i : Instr} (h : i.WellFormed) : decodeWord (encode i) = .ok i := by
  obtain ⟨r, hr, hbuild⟩ := exists_row i
  obtain ⟨-, harg, -⟩ := encode_fields h
  rw [← harg] at hbuild
  rw [decodeWord_of_selects hr ((selects_iff_encode hr _).mpr (by rw [hbuild])), hbuild]

/-- A word decodes to a command exactly when the command is well formed and the word is its word (R82, R87). -/
theorem decodeWord_eq_ok_iff {w : Word} {i : Instr} : decodeWord w = .ok i ↔ i.WellFormed ∧ encode i = w := by
  constructor
  · intro h
    by_cases hsel : ∃ r ∈ opcodeTable, r.selects w = true
    · obtain ⟨r, hr, hs⟩ := hsel
      rw [decodeWord_of_selects hr hs] at h
      cases h
      exact ⟨build_wellFormed hr (cmdArg_lt w), ((selects_iff_encode hr w).mp hs).symm⟩
    · rw [decodeWord_of_not_selects fun r hr hs => hsel ⟨r, hr, hs⟩] at h
      cases h
  · rintro ⟨h, rfl⟩
    exact decodeWord_encode h

/-- A word with a reserved bit set is illegal (R83, R86). -/
theorem decodeWord_error_of_rsvd {w : Word} (h : cmdRsvd w ≠ 0#48) : ∃ e, decodeWord w = .error e := by
  cases hd : decodeWord w with
  | error e => exact ⟨e, rfl⟩
  | ok i =>
    obtain ⟨hi, rfl⟩ := decodeWord_eq_ok_iff.mp hd
    obtain ⟨-, -, hrsvd⟩ := encode_fields hi
    exact absurd hrsvd h

/-- A word selects one row and decodes by it, or selects none and is illegal (R87). -/
theorem filter_selects_cases (w : Word) :
    (∃ r, opcodeTable.filter (fun r => r.selects w) = [r] ∧ decodeWord w = .ok (r.build (cmdArg w))) ∨
      (opcodeTable.filter (fun r => r.selects w) = [] ∧ ∃ e, decodeWord w = .error e) := by
  have hmem : ∀ r ∈ opcodeTable.filter (fun r => r.selects w), r ∈ opcodeTable ∧ r.selects w = true :=
    fun r => List.mem_filter.mp
  have hnodup : (opcodeTable.filter fun r => r.selects w).Nodup := opcodeTable_ops_nodup.of_map.filter _
  cases hf : opcodeTable.filter fun r => r.selects w with
  | nil => exact .inr ⟨rfl, _, decodeWord_of_not_selects (List.filter_eq_nil_iff.mp hf)⟩
  | cons r rest =>
    rw [hf] at hmem hnodup
    obtain ⟨hr, hs⟩ := hmem r List.mem_cons_self
    have hrest : rest = [] := List.eq_nil_iff_forall_not_mem.mpr fun r' hr' => by
      obtain ⟨hr'', hs'⟩ := hmem r' (List.mem_cons_of_mem r hr')
      obtain rfl := selects_unique hr hr'' hs hs'
      exact (List.nodup_cons.mp hnodup).1 hr'
    exact .inl ⟨r, by rw [hrest], decodeWord_of_selects hr hs⟩

/-! ## The number of legal words -/

/-- The commands without an argument (R82). -/
def plainCommands : Finset Instr :=
  {.nop, .clear, .modexp, .legendre, .bbsSeed, .keygen, .keysched, .enc, .dec, .fround, .ffunc}

/-- The well-formed commands: eleven without an argument, and 256 each of BBS_NEXT and PERM (R81, R82). -/
def wellFormedCommands : Finset Instr :=
  plainCommands ∪ ((Finset.range 256).image .bbsNext ∪ (Finset.range 256).image .perm)

theorem mem_wellFormedCommands {i : Instr} : i ∈ wellFormedCommands ↔ i.WellFormed := by
  simp only [wellFormedCommands, Finset.mem_union, Finset.mem_image, Finset.mem_range]
  cases i <;> simp [plainCommands, Instr.WellFormed, Instr.wellFormed]

theorem card_wellFormedCommands : wellFormedCommands.card = 523 := by
  have hnext : ((Finset.range 256).image Instr.bbsNext).card = 256 := by
    rw [Finset.card_image_of_injective _ fun _ _ h => Instr.bbsNext.inj h, Finset.card_range]
  have hperm : ((Finset.range 256).image Instr.perm).card = 256 := by
    rw [Finset.card_image_of_injective _ fun _ _ h => Instr.perm.inj h, Finset.card_range]
  have hplain : plainCommands.card = 11 := by decide
  rw [wellFormedCommands, Finset.card_union_of_disjoint, Finset.card_union_of_disjoint, hplain, hnext, hperm]
  · simp [Finset.disjoint_left]
  · simp [Finset.disjoint_left, plainCommands]

/-- The legal words with RSVD = 0 are the words of the well-formed commands (R82, R87). -/
theorem legalWords_eq_image :
    (Finset.range (2 ^ 16)).filter (fun n => (decodeWord (BitVec.ofNat 64 n)).toOption.isSome = true) =
      wellFormedCommands.image fun i => (encode i).toNat := by
  ext n
  simp only [Finset.mem_filter, Finset.mem_range, Finset.mem_image, mem_wellFormedCommands]
  constructor
  · rintro ⟨hn, hlegal⟩
    cases hd : decodeWord (BitVec.ofNat 64 n) with
    | error e => rw [hd] at hlegal; cases hlegal
    | ok i =>
      obtain ⟨hi, hw⟩ := decodeWord_eq_ok_iff.mp hd
      exact ⟨i, hi, by rw [hw, BitVec.toNat_ofNat]; omega⟩
  · rintro ⟨i, hi, rfl⟩
    rw [BitVec.ofNat_toNat, BitVec.setWidth_eq, decodeWord_encode hi]
    exact ⟨encode_toNat_lt hi, rfl⟩

/-- 523 words with RSVD = 0 are legal: different well-formed commands have different words (R86, R87). -/
theorem card_legalWords :
    ((Finset.range (2 ^ 16)).filter (fun n => (decodeWord (BitVec.ofNat 64 n)).toOption.isSome = true)).card = 523 := by
  rw [legalWords_eq_image, Finset.card_image_of_injOn, card_wellFormedCommands]
  intro i hi j hj hij
  have hdi := decodeWord_encode (mem_wellFormedCommands.mp hi)
  have hdj := decodeWord_encode (mem_wellFormedCommands.mp hj)
  rw [BitVec.eq_of_toNat_eq hij, hdj] at hdi
  exact (Except.ok.inj hdi).symm

/-! ## The obligations about the decoder -/

/-- Settles O1: the row of the command selects its word. -/
theorem decodeOfEncode : Obligations.DecodeOfEncode := by
  unfold Obligations.DecodeOfEncode
  exact fun _ => decodeWord_encode

/-- Settles O2: a selected row builds the command whose word it selected. -/
theorem encodeOfDecode : Obligations.EncodeOfDecode := by
  unfold Obligations.EncodeOfDecode
  exact fun _ _ => decodeWord_eq_ok_iff.mp

/-- Settles O3: the rows' OP fields differ, and the legal words are counted by their commands. -/
theorem opcodeMapTotalAndUnambiguous : Obligations.OpcodeMapTotalAndUnambiguous := by
  unfold Obligations.OpcodeMapTotalAndUnambiguous
  exact ⟨filter_selects_cases, fun _ => decodeWord_error_of_rsvd, card_legalWords⟩

/-- A command's word, written out, decodes to the command. -/
theorem decodeWord_of_encode_eq {w : Word} {i : Instr} (hi : i.WellFormed) (h : encode i = w) : decodeWord w = .ok i :=
  decodeWord_eq_ok_iff.mpr ⟨hi, h⟩

/-- Settles O4: each legal word is its command's word, and the two illegal ones, an ARG on NOP and a reserved bit, select no row. -/
theorem specWordsDecode : Obligations.SpecWordsDecode := by
  unfold Obligations.SpecWordsDecode
  have harg := decodeWord_of_not_selects (w := 0x0000000000000100#64) (by decide)
  have hrsvd := decodeWord_of_not_selects (w := 0x0000000000010010#64) (by decide)
  refine ⟨decodeWord_of_encode_eq rfl rfl, decodeWord_of_encode_eq rfl rfl, decodeWord_of_encode_eq rfl rfl,
    decodeWord_of_encode_eq rfl rfl, decodeWord_of_encode_eq rfl rfl, decodeWord_of_encode_eq rfl rfl,
    decodeWord_of_encode_eq rfl rfl, decodeWord_of_encode_eq rfl rfl, decodeWord_of_encode_eq rfl rfl,
    decodeWord_of_encode_eq rfl rfl, decodeWord_of_encode_eq rfl rfl, decodeWord_of_encode_eq rfl rfl,
    decodeWord_of_encode_eq rfl rfl, fun i h => ?_, fun i h => ?_⟩
  · rw [harg] at h; cases h
  · rw [hrsvd] at h; cases h

end Sys2Proof

namespace Sys2Proof.Machine

/-! ## The completing engine step -/

/-- The completing engine step, as a whole step (R103, R106). -/
theorem step_completes {s : State} {w : Word} (ht : s.nextTurn = .engine) (hr : s.resetAsserted = false)
    (he : s.engine = .busy w 1) : step s = completeWord w s.turnTaken := by
  rw [step_engine ht, engineStep_completes (s := s.turnTaken) hr he le_rfl]

/-- A legal word completes by its command (R103). -/
theorem completeWord_ok {w : Word} {i : Instr} (hd : decodeWord w = .ok i) (s : State) : completeWord w s = exec i s := by
  rw [completeWord, hd]

/-- An illegal word completes with ILLEGAL (R83, R105). -/
theorem completeWord_error {w : Word} {e : DecodeError} (hd : decodeWord w = .error e) (s : State) :
    completeWord w s = .next (s.takeError .illegal) := by
  rw [completeWord, hd, completeBy_error]

/-- Settles O10: the completing step of an illegal word is the error completion with code 1. -/
theorem illegalWordEndsInIllegal : Obligations.IllegalWordEndsInIllegal := by
  unfold Obligations.IllegalWordEndsInIllegal
  intro s w e ht hr he hd
  rw [step_completes ht hr he, completeWord_error hd, takeError_eq]
  rfl

/-! ## What a completing command may write -/

section CompletionFlags
variable (st : Word) (e : ErrCode)

@[simp] theorem Status.busy_completedStatus : Status.busy (completedStatus st) = false := by simp [completedStatus]
@[simp] theorem Status.done_completedStatus : Status.done (completedStatus st) = true := by simp [completedStatus]
@[simp] theorem Status.err_completedStatus : Status.err (completedStatus st) = Status.err st := by simp [completedStatus]
@[simp] theorem Status.lost_completedStatus : Status.lost (completedStatus st) = Status.lost st := by simp [completedStatus]
@[simp] theorem Status.bbsv_completedStatus : Status.bbsv (completedStatus st) = Status.bbsv st := by simp [completedStatus]
@[simp] theorem Status.skv_completedStatus : Status.skv (completedStatus st) = Status.skv st := by simp [completedStatus]

@[simp] theorem Status.busy_erroredStatus : Status.busy (erroredStatus st e) = false := by simp [erroredStatus]
@[simp] theorem Status.done_erroredStatus : Status.done (erroredStatus st e) = true := by simp [erroredStatus]
@[simp] theorem Status.err_erroredStatus : Status.err (erroredStatus st e) = true := by simp [erroredStatus]
@[simp] theorem Status.lost_erroredStatus : Status.lost (erroredStatus st e) = Status.lost st := by simp [erroredStatus]
@[simp] theorem Status.bbsv_erroredStatus : Status.bbsv (erroredStatus st e) = Status.bbsv st := by simp [erroredStatus]
@[simp] theorem Status.skv_erroredStatus : Status.skv (erroredStatus st e) = Status.skv st := by simp [erroredStatus]

end CompletionFlags

/-- Every completion clears BUSY and sets DONE (R104, R105). -/
theorem ExecCase.busy_done {i : Instr} {s t : State} (h : ExecCase i s t) : t.busy = false ∧ t.done = true := by
  rcases h.shape with ⟨e, rfl⟩ | ⟨ws, rfl⟩
  · exact ⟨Status.busy_erroredStatus s.status e, Status.done_erroredStatus s.status e⟩
  · exact ⟨Status.busy_completedStatus _, Status.done_completedStatus _⟩

/-- Settles O13, by the ways a command can answer: an error writes none of the registers, a commit set those it names. -/
theorem onlyNamedCommandsWrite : Obligations.OnlyNamedCommandsWrite := by
  unfold Obligations.OnlyNamedCommandsWrite
  intro i s t h
  cases execCase_of_next h with
  | error => simp [State.skv, State.bbsv, State.lost, State.err]
  | nop | modexp | legendre | enc | dec | fround | ffunc | perm =>
    simp [State.complete, State.skv, State.bbsv, State.lost, State.err]
  | bbsSeed | bbsNext => simp [State.complete, State.skv, State.bbsv, State.lost, State.err]
  | keygen | keysched => simp [State.complete, State.skv, State.bbsv, State.lost, State.err]
  | clear => simp [State.complete, clearCommit, State.skv, State.bbsv]

/-! ## The host's `wait` -/

section Polling
variable {s : State} {rest : List HostOp} (ht : s.nextTurn = .host) (hr : s.resetAsserted = false)
  (hp : s.program = .wait :: rest)
include ht hr hp

/-- A poll that reads BUSY = 1 leaves the `wait` where it is (R89). -/
theorem step_wait_busy (hb : s.busy = true) :
    step s = .next { s.turnTaken with observed := s.observed ++ [⟨0x08, s.status⟩] } := by
  have hb' : s.turnTaken.busy = true := hb
  rw [step_host ht, hostStep_wait (s := s.turnTaken) hp hr, if_pos hb']
  rfl

/-- A poll that reads BUSY = 0 ends the `wait` (R89). -/
theorem step_wait_done (hb : s.busy = false) :
    step s = .next { s.turnTaken with program := rest, observed := s.observed ++ [⟨0x08, s.status⟩] } := by
  have hb' : ¬ s.turnTaken.busy = true := Bool.eq_false_iff.mp hb
  rw [step_host ht, hostStep_wait (s := s.turnTaken) hp hr, if_neg hb', State.advance, State.turnTaken_program, hp]
  rfl

end Polling

/-- Settles O28: bit 0 of STATUS is BUSY, and a poll goes by it. -/
theorem waitPollsStatus : Obligations.WaitPollsStatus := by
  unfold Obligations.WaitPollsStatus
  exact fun s rest ht hr hp => ⟨step_wait_busy ht hr hp, step_wait_done ht hr hp⟩

/-! ## The host's `run` -/

/-- An accepted write of CMD, as a whole step (R101). -/
theorem step_acceptsCmd {s : State} {w : Word} {rest : List HostOp} (ht : s.nextTurn = .host) (hr : s.resetAsserted = false)
    (hacc : s.accepts w = true) (hp : s.program = .write Reg.cmd.offset 8 w :: rest) :
    step s = .next (State.accept { s.turnTaken with program := rest } w) := by
  rw [step_writeReg ht hr (r := .cmd) hp]
  exact congrArg Host.Outcome.next (if_pos hacc)

/-- Engine turns in a row count the latency down to 1 (R106). -/
theorem steps_count_latency {s : State} {w : Word} {k : Nat} {rest : List Turn} (hr : s.resetAsserted = false)
    (he : s.engine = .busy w (k + 1)) (hs : s.schedule = List.replicate k .engine ++ rest) :
    steps k s = .next { s with engine := .busy w 1, schedule := rest, turns := s.turns + k } := by
  induction k generalizing s with
  | zero =>
    obtain rfl : s.schedule = rest := hs
    rw [steps_zero, Nat.add_zero, ← he]
  | succ k ih =>
    have hs' : s.schedule = .engine :: (List.replicate k .engine ++ rest) := hs
    have hstep : step s = .next { s with
        engine := .busy w (k + 1), schedule := List.replicate k .engine ++ rest, turns := s.turns + 1 } := by
      rw [step_engine (s.nextTurn_of_cons hs'), engineStep_counts (s := s.turnTaken) hr he (by omega), s.turnTaken_of_cons hs']
      rfl
    rw [steps_succ hstep, show s.turns + (k + 1) = s.turns + 1 + k by omega]
    exact ih hr rfl rfl

/-- The state in which a `run` completes its command: the word latched at acceptance, its latency counted down to 1 (R101, R106). -/
def State.aboutToComplete (s : State) (w : Word) (rest : List HostOp) (lats : List Nat) (sch : List Turn) (k : Nat) : State :=
  { s with
    status := acceptStatus s.status w
    engine := .busy w 1
    program := rest
    latencies := lats
    schedule := sch
    turns := s.turns + k }

/-- One turn for the write and all but one of the latency for the engine bring a command to its completion (R101, R106). -/
theorem steps_to_aboutToComplete {s : State} {w : Word} {rest : List HostOp} {extra : Nat} {lats : List Nat} {sch : List Turn}
    (hr : s.resetAsserted = false) (hacc : s.accepts w = true) (hp : s.program = .write Reg.cmd.offset 8 w :: rest)
    (hl : s.latencies = extra :: lats) (hs : s.schedule = .host :: (List.replicate extra .engine ++ sch)) :
    steps (extra + 1) s = .next (s.aboutToComplete w rest lats sch (extra + 1)) := by
  have hstep : step s = .next { s with
      status := acceptStatus s.status w
      engine := .busy w (extra + 1)
      program := rest
      latencies := lats
      schedule := List.replicate extra .engine ++ sch
      turns := s.turns + 1 } := by
    rw [step_acceptsCmd (s.nextTurn_of_cons hs) hr hacc hp, s.turnTaken_of_cons hs]
    simp [State.accept, State.nextLatency, hl, acceptedStatus_eq]
  rw [steps_succ hstep, State.aboutToComplete, show s.turns + (extra + 1) = s.turns + 1 + extra by omega]
  exact steps_count_latency hr rfl rfl

/-- The engine's last step and the host's next poll: the command completes, and its `wait` ends (R89, R104, R105). -/
theorem steps_complete_poll {s : State} {w : Word} {i : Instr} {rest : List HostOp} {sch : List Turn}
    (hr : s.resetAsserted = false) (he : s.engine = .busy w 1) (hd : decodeWord w = .ok i) (hp : s.program = .wait :: rest)
    (hs : s.schedule = .engine :: .host :: sch) :
    ∃ u, exec i s.turnTaken = .next u ∧ u.busy = false ∧ u.done = true ∧
      steps 2 s = .next
        { u with program := rest, schedule := sch, turns := u.turns + 1, observed := u.observed ++ [⟨0x08, u.status⟩] } := by
  obtain ⟨u, hu, hcase⟩ := exec_cases i s.turnTaken
  have hcomplete : step s = .next u := by rw [step_completes (s.nextTurn_of_cons hs) hr he, completeWord_ok hd, hu]
  obtain ⟨hprogram, -, hreset, -, hschedule, -⟩ := hcase.keeps
  rw [s.turnTaken_of_cons hs] at hprogram hreset hschedule
  obtain ⟨hbusy, hdone⟩ := hcase.busy_done
  have hpoll := step_wait_done (u.nextTurn_of_cons hschedule) (hreset.trans hr) (hprogram.trans hp) hbusy
  rw [u.turnTaken_of_cons hschedule] at hpoll
  exact ⟨u, hu, hbusy, hdone, by rw [steps_succ hcomplete, steps_succ hpoll, steps_zero]⟩

/-- Settles O29: the write is accepted, the engine counts down and completes, and the poll reads BUSY = 0. -/
theorem runStatementExecutesItsCommand : Obligations.RunStatementExecutesItsCommand := by
  unfold Obligations.RunStatementExecutesItsCommand
  intro s i rest extra lats sch hi hr hb herr hp hl hs
  have hacc : s.accepts (encode i) = true := (accepts_iff s _).mpr ⟨hb, .inl herr⟩
  have hs' : s.schedule = .host :: (List.replicate extra .engine ++ .engine :: .host :: sch) := by
    rw [hs, List.replicate_succ', List.append_assoc]
    rfl
  have hrun := steps_to_aboutToComplete hr hacc hp hl hs'
  obtain ⟨u, hu, hbusy, hdone, hend⟩ := steps_complete_poll
    (s := s.aboutToComplete (encode i) (.wait :: rest) lats (.engine :: .host :: sch) (extra + 1))
    hr rfl (decodeWord_encode hi) rfl rfl
  exact ⟨_, u, (steps_add hrun).trans hend, hu, rfl, hbusy, hdone⟩

/-! ## Infinite runs -/

/-- Engine steps still to come before the running command completes (R106). -/
def Engine.remaining : Engine → Nat
  | .idle => 0
  | .busy _ lat => lat

/-- In an invariant state with no engine steps to come BUSY is 0 (R106). -/
theorem Inv.busy_eq_false_of_remaining {s : State} (h : Inv s) (h0 : s.engine.remaining = 0) : s.busy = false := by
  have hidle : s.engine = .idle := by
    cases he : s.engine with
    | idle => rfl
    | busy w lat =>
      rw [he] at h0
      obtain ⟨hlat, -⟩ := h.engineRuns w lat he
      exact absurd h0 (by simp only [Engine.remaining]; omega)
  exact Bool.eq_false_iff.mpr fun hb => h.busyIsEngine.mp hb hidle

/-- While the host's next action is a `wait` no command is accepted, so a step leaves no more engine steps to come (R89, R101). -/
theorem remaining_le_of_wait {s t : State} {rest : List HostOp} (hp : s.program = .wait :: rest) (hst : step s = .next t) :
    t.engine.remaining ≤ s.engine.remaining := by
  cases step_cases hst with
  | hostWrite _ _ _ _ hp' => rw [hp] at hp'; cases hp'
  | engineCounts _ _ w lat he => simp [he, Engine.remaining]
  | engineCompletes _ _ _ _ _ _ _ _ _ hx => simp [(execCase_of_next hx).idle, Engine.remaining]
  | engineIllegal => exact Nat.zero_le _
  | assertReset => exact Nat.zero_le _
  | releaseReset =>
    unfold State.releaseReset
    split
    · exact Nat.zero_le _
    · exact le_rfl
  | _ => exact le_rfl

/-- An engine turn leaves one engine step fewer to come (R106). -/
theorem remaining_le_of_engineTurn {s t : State} (h : Inv s) (ht : s.nextTurn = .engine) (hst : step s = .next t) :
    t.engine.remaining ≤ s.engine.remaining - 1 := by
  cases step_cases hst with
  | engineHeld _ hr =>
    have hidle : s.engine = .idle := (congrArg State.engine (h.resetHeld hr)).symm
    simp [hidle, Engine.remaining]
  | engineIdle _ _ he => simp [he, Engine.remaining]
  | engineCounts _ _ w lat he => simp [he, Engine.remaining]
  | engineCompletes _ _ _ _ _ _ _ _ _ hx => simp [(execCase_of_next hx).idle, Engine.remaining]
  | engineIllegal => exact Nat.zero_le _
  | _ ht' => simp [ht] at ht'

section Run
variable {r : Nat → State} (hrun : IsRun r)
include hrun

theorem IsRun.inv {n : Nat} (h : Inv (r n)) {m : Nat} (hm : n ≤ m) : Inv (r m) := by
  induction m, hm using Nat.le_induction with
  | base => exact h
  | succ m _ ih => exact ih.step (hrun m)

/-- An engine turn among the turns to come is taken. -/
theorem IsRun.exists_engineTurn_of_mem_coming {l : List Turn} {n : Nat} (hl : (r n).coming = l) (hmem : .engine ∈ l) :
    ∃ m, n ≤ m ∧ (r m).nextTurn = .engine := by
  induction l generalizing n with
  | nil => cases hmem
  | cons t ts ih =>
    have htaken := (r n).coming_eq
    rw [hl] at htaken
    obtain ⟨rfl, hts⟩ := List.cons.inj htaken
    rcases List.mem_cons.mp hmem with ht | hmem
    · exact ⟨n, le_rfl, ht.symm⟩
    · have hsched : (r (n + 1)).schedule = ts := by rw [(step_turns (hrun n)).1, hl]; rfl
      have hcoming : (r (n + 1)).coming = ts := by
        cases ts with
        | nil => cases hmem
        | cons t' ts' => exact State.coming_of_cons _ hsched
      obtain ⟨m, hm, hturn⟩ := ih hcoming hmem
      exact ⟨m, by omega, hturn⟩

/-- The engine's turn comes again and again: the schedule runs out, and then an engine turn follows (R240, log entry 2). -/
theorem IsRun.exists_engineTurn (n : Nat) : ∃ m, n ≤ m ∧ (r m).nextTurn = .engine := by
  generalize hl : (r n).schedule = l
  induction l generalizing n with
  | nil => exact hrun.exists_engineTurn_of_mem_coming (State.coming_of_nil _ hl) (by simp)
  | cons t ts ih =>
    have hsched : (r (n + 1)).schedule = ts := by rw [(step_turns (hrun n)).1, State.coming_of_cons _ hl]; rfl
    obtain ⟨m, hm, hturn⟩ := ih (n + 1) hsched
    exact ⟨m, by omega, hturn⟩

end Run

/-- The `wait` that is the host's next action at step `n` still is at every step up to `k`. -/
def WaitsThrough (r : Nat → State) (rest : List HostOp) (n k : Nat) : Prop :=
  ∀ j, n ≤ j → j ≤ k → (r j).program = .wait :: rest

theorem WaitsThrough.mono {r : Nat → State} {rest : List HostOp} {n k j : Nat} (h : WaitsThrough r rest n k) (hj : j ≤ k) :
    WaitsThrough r rest n j := fun i hn hi => h i hn (hi.trans hj)

section Waiting
variable {r : Nat → State} (hrun : IsRun r) {n : Nat} (h : Inv (r n)) {rest : List HostOp}
include hrun

/-- Through a `wait` the engine steps to come never grow in number. -/
theorem IsRun.remaining_antitone {m k : Nat} (hn : n ≤ m) (hm : m ≤ k) (hw : WaitsThrough r rest n k) :
    (r k).engine.remaining ≤ (r m).engine.remaining := by
  induction k, hm using Nat.le_induction with
  | base => exact le_rfl
  | succ k hk ih =>
    have hp : (r k).program = .wait :: rest := hw k (hn.trans hk) (by omega)
    exact (remaining_le_of_wait hp (hrun k)).trans (ih (hw.mono (by omega)))

include h

/-- From some step on, a `wait` that still stands has seen `d` engine turns go by. -/
theorem IsRun.exists_remaining_le (d : Nat) :
    ∃ m, n ≤ m ∧ ∀ k, m ≤ k → WaitsThrough r rest n k → (r k).engine.remaining ≤ (r n).engine.remaining - d := by
  induction d with
  | zero => exact ⟨n, le_rfl, fun k hk hw => hrun.remaining_antitone le_rfl hk hw⟩
  | succ d ih =>
    obtain ⟨m, hnm, hm⟩ := ih
    obtain ⟨e, hme, hturn⟩ := hrun.exists_engineTurn m
    refine ⟨e + 1, by omega, fun k hk hw => ?_⟩
    have hbefore := hm e hme (hw.mono (by omega))
    have hat := remaining_le_of_engineTurn (hrun.inv h (hnm.trans hme)) hturn (hrun e)
    have hafter := hrun.remaining_antitone (by omega) hk hw
    omega

/-- From some step on, the next poll of a `wait` that still stands ends it (R89, R240). -/
theorem IsRun.exists_poll_ends_wait :
    ∃ m, n ≤ m ∧ ∀ k, m ≤ k → WaitsThrough r rest n k → (r k).nextTurn = .host → (r (k + 1)).program = rest := by
  obtain ⟨m, hnm, hm⟩ := hrun.exists_remaining_le h (r n).engine.remaining (rest := rest)
  refine ⟨m, hnm, fun k hk hw ht => ?_⟩
  have hp : (r k).program = .wait :: rest := hw k (by omega) le_rfl
  have hzero : (r k).engine.remaining = 0 := by simpa using hm k hk hw
  have hb : (r k).busy = false := (hrun.inv h (hnm.trans hk)).busy_eq_false_of_remaining hzero
  have hr : (r k).resetAsserted = false := by
    cases hr : (r k).resetAsserted with
    | false => rfl
    | true =>
      have hstop := step_wait_accessProblem ht hp (accessProblem_reset hr _ 8)
      rw [hrun k] at hstop
      cases hstop
  have hstep := step_wait_done ht hr hp hb
  rw [hrun k] at hstep
  exact congrArg State.program (Host.Outcome.next.inj hstep)

/-- A host that goes on polling ends its `wait` (R89; log entry 23). -/
theorem IsRun.exists_wait_ends (hp : (r n).program = .wait :: rest) (hgo : HostGoesOn r) :
    ∃ m, n ≤ m ∧ WaitsThrough r rest n m ∧ (r (m + 1)).program = rest := by
  have hleft : ∃ d, (r (n + d + 1)).program ≠ .wait :: rest := by
    by_contra hstay
    push Not at hstay
    have hwait : ∀ k, WaitsThrough r rest n k := by
      intro k j hn _
      obtain ⟨d, rfl⟩ := Nat.exists_eq_add_of_le hn
      cases d with
      | zero => exact hp
      | succ d => exact hstay d
    obtain ⟨m, hnm, hm⟩ := hrun.exists_poll_ends_wait h (rest := rest)
    obtain ⟨k, hk, ht⟩ := hgo m fun j hj => by
      rw [hwait j j (hnm.trans hj) le_rfl]
      exact List.cons_ne_nil _ _
    have hend := hm k hk (hwait k) ht
    rw [hwait (k + 1) (k + 1) (by omega) le_rfl] at hend
    exact List.cons_ne_self _ _ hend
  classical
  have hfirst := Nat.find_spec hleft
  have hwait : WaitsThrough r rest n (n + Nat.find hleft) := by
    intro j hn hj
    obtain ⟨d, rfl⟩ := Nat.exists_eq_add_of_le hn
    cases d with
    | zero => exact hp
    | succ d => exact not_not.mp (Nat.find_min hleft (m := d) (by omega))
  refine ⟨n + Nat.find hleft, by omega, hwait, ?_⟩
  have hnow := hwait _ (by omega) le_rfl
  rcases step_program (hrun (n + Nat.find hleft)) with hsame | ⟨-, htail⟩
  · exact absurd (hsame.trans hnow) hfirst
  · rw [htail, hnow, List.tail_cons]

end Waiting

/-- Settles O19: the command ends within its latency in engine turns, and the poll after that reads BUSY = 0. -/
theorem waitEndsInEveryRun : Obligations.WaitEndsInEveryRun := by
  unfold Obligations.WaitEndsInEveryRun
  exact fun r n rest hrun h hp => ⟨hrun.exists_poll_ends_wait h, hrun.exists_wait_ends h hp⟩

end Sys2Proof.Machine

/-! SUPPORT. Family 40_control: the life cycle of a command, and the control commands NOP and CLEAR.

A host's write of CMD is one step that accepts the word or drops it; each engine step counts the latency down or completes the word; and a
completion, by a commit set or by an error, keeps LASTOP and the operand registers. -/

namespace Sys2Proof.Machine

/-! ## The engine's step -/

/-- Settles O5: the completing step of a legal word is its command. -/
theorem stepRunsDecodedCommand : Obligations.StepRunsDecodedCommand := by
  unfold Obligations.StepRunsDecodedCommand
  intro s w i ht hr he hd
  rw [step_completes ht hr he, completeWord_ok hd]

/-- An idle engine does nothing, whether or not reset is asserted (R106, R230). -/
theorem engineStep_idle {s : State} (he : s.engine = .idle) : engineStep s = .next s := by
  rw [engineStep, he]
  exact ite_self _

/-- Settles O7, by the two lines of the engine's step that complete nothing. -/
theorem engineStepCountsLatency : Obligations.EngineStepCountsLatency := by
  unfold Obligations.EngineStepCountsLatency
  refine ⟨fun s w lat ht hr he hl => ?_, fun s ht he => ?_⟩
  · rw [step_engine ht, engineStep_counts (s := s.turnTaken) hr he hl]
  · rw [step_engine ht, engineStep_idle (s := s.turnTaken) he]

/-- The completing step of a legal word whose turn is scheduled, with the turn used up (R103, R106). -/
theorem step_completes_of_schedule {s : State} {w : Word} {i : Instr} {rest : List Turn} (hr : s.resetAsserted = false)
    (he : s.engine = .busy w 1) (hd : decodeWord w = .ok i) (hs : s.schedule = .engine :: rest) :
    step s = exec i { s with schedule := rest, turns := s.turns + 1 } := by
  rw [step_completes (s.nextTurn_of_cons hs) hr he, completeWord_ok hd, s.turnTaken_of_cons hs]

/-- Settles O16: all engine turns but the last count the latency down to 1, and the last completes the command. -/
theorem commandCompletesAfterLatency : Obligations.CommandCompletesAfterLatency := by
  unfold Obligations.CommandCompletesAfterLatency
  intro s w i lat rest hlat hr he hd hs
  obtain ⟨k, rfl⟩ := Nat.exists_eq_add_of_le' hlat
  have hs' : s.schedule = List.replicate k .engine ++ .engine :: rest := by
    rw [hs, List.replicate_succ', List.append_assoc]
    rfl
  have hcount := steps_count_latency hr he hs'
  obtain ⟨t, hexec, hcase⟩ := exec_cases i { s with engine := .busy w 1, schedule := rest, turns := s.turns + (k + 1) }
  have hlast := step_completes_of_schedule
    (s := { s with engine := .busy w 1, schedule := .engine :: rest, turns := s.turns + k }) hr rfl hd rfl
  obtain ⟨-, hdone⟩ := hcase.busy_done
  exact ⟨t, by rw [steps_add hcount, steps_succ (hlast.trans hexec), steps_zero], hcase.idle, hdone, hexec⟩

/-! ## The host's write of CMD -/

/-- Settles O8: an accepted write of CMD is one update of the state, and its STATUS is a mask of the old one. -/
theorem commandWordAccepted : Obligations.CommandWordAccepted := by
  unfold Obligations.CommandWordAccepted
  intro s w rest ht hr hp hb hw
  have hacc : s.accepts w = true := (accepts_iff s w).mpr ⟨hb, hw⟩
  refine ⟨State.nextLatency { s.turnTaken with program := rest } w, one_le_nextLatency _ w, ?_⟩
  rw [step_acceptsCmd ht hr hacc hp, State.accept, acceptedStatus_eq]
  rfl

/-- A write of CMD that is not accepted, as a whole step (R102). -/
theorem step_dropsCmd {s : State} {w : Word} {rest : List HostOp} (ht : s.nextTurn = .host) (hr : s.resetAsserted = false)
    (hacc : ¬ s.accepts w = true) (hp : s.program = .write Reg.cmd.offset 8 w :: rest) :
    step s = .next (State.lose { s.turnTaken with program := rest }) := by
  rw [step_writeReg ht hr (r := .cmd) hp]
  exact congrArg Host.Outcome.next (if_neg hacc)

/-- Settles O9: the acceptance condition fails, so the write sets LOST and nothing else. -/
theorem commandWordDropped : Obligations.CommandWordDropped := by
  unfold Obligations.CommandWordDropped
  intro s w rest ht hr hp hdrop
  have hacc : ¬ s.accepts w = true := by
    rw [accepts_iff]
    rintro ⟨hb, herr | hw⟩
    · simp [hb, herr] at hdrop
    · simp [hb, hw, clearWord] at hdrop
  rw [step_dropsCmd ht hr hacc hp, State.lose, withLost_eq]
  rfl

/-! ## What a completion keeps -/

@[simp] theorem Status.lastOp_completedStatus (st : Word) : Status.lastOp (completedStatus st) = Status.lastOp st := by
  simp [completedStatus]
@[simp] theorem Status.lastOp_erroredStatus (st : Word) (e : ErrCode) : Status.lastOp (erroredStatus st e) = Status.lastOp st := by
  simp [erroredStatus]

/-- No commit set names LASTOP (R13, R22). -/
@[simp] theorem State.commit_lastOp (s : State) (ws : List RegWrite) : (s.commit ws).lastOp = s.lastOp := by
  induction ws generalizing s with
  | nil => rfl
  | cons w ws ih =>
    have happly : (RegWrite.apply s w).lastOp = s.lastOp := by cases w <;> simp [State.lastOp]
    rw [State.commit_cons, ih, happly]

/-- LASTOP is written at acceptance alone (R101, R104, R105). -/
theorem ExecCase.lastOp {i : Instr} {s t : State} (h : ExecCase i s t) : t.lastOp = s.lastOp := by
  rcases h.shape with ⟨e, rfl⟩ | ⟨ws, rfl⟩
  · exact Status.lastOp_erroredStatus s.status e
  · exact (Status.lastOp_completedStatus _).trans (s.commit_lastOp ws)

/-- No command writes an operand register (R21). -/
theorem ExecCase.operands {i : Instr} {s t : State} (h : ExecCase i s t) : t.opa = s.opa ∧ t.opb = s.opb ∧ t.opm = s.opm := by
  rcases h.shape with ⟨e, rfl⟩ | ⟨ws, rfl⟩
  · exact ⟨rfl, rfl, rfl⟩
  · obtain ⟨-, -, -, -, -, -, -, hoperands⟩ := commit_keeps s ws
    exact hoperands

/-- Settles O11, from the shape of every completion. -/
theorem everyCommandCompletes : Obligations.EveryCommandCompletes := by
  unfold Obligations.EveryCommandCompletes
  intro i s
  obtain ⟨t, hexec, hcase⟩ := exec_cases i s
  obtain ⟨hbusy, hdone⟩ := hcase.busy_done
  obtain ⟨hopa, hopb, hopm⟩ := hcase.operands
  obtain ⟨hprogram, hobserved, hreset, htables, hrest⟩ := hcase.keeps
  exact ⟨t, hexec, hbusy, hdone, hcase.idle, hcase.lastOp, hopa, hopb, hopm, htables, hreset, hprogram, hobserved, hrest⟩

/-! ## While a command runs -/

/-- While BUSY = 1 a write of the window is ignored or dropped (R31, R65, R102). -/
theorem writeAt_busy {s : State} (hb : s.busy = true) (off : Nat) (v : Word) :
    s.writeAt off v = s ∨ s.writeAt off v = s.lose := by
  have hnb : s.busy ≠ false := by simp [hb]
  rcases writeAt_cases s off v with h | h | ⟨hacc, -⟩ | ⟨hidle, -⟩ | ⟨hidle, -⟩
  · exact .inl h
  · exact .inr h
  · exact absurd ((accepts_iff s v).mp hacc).1 hnb
  · exact absurd hidle hnb
  · exact absurd hidle hnb

/-- Releasing reset when it is not asserted does nothing (log entry 10). -/
theorem State.releaseReset_of_released {s : State} (hr : s.resetAsserted = false) : s.releaseReset = s := if_neg (by simp [hr])

/-- A dropped write shows in no register but STATUS (R31, R102). -/
theorem readReg_lose (s : State) {r : Reg} (hr : r ≠ .status) : s.lose.readReg r = s.readReg r := by
  cases r with
  | status => exact absurd rfl hr
  | _ => rfl

/-- Settles O14, by the ways a step can answer: a completion and an asserted reset leave the engine idle, and any other step changes at
most LOST. -/
theorem nothingVisibleBeforeCompletion : Obligations.NothingVisibleBeforeCompletion := by
  unfold Obligations.NothingVisibleBeforeCompletion
  intro s t hb hr hst hrun
  cases step_cases hst with
  | hostWrite _ off v =>
    rcases writeAt_busy (s := s.turnTaken.advance) hb off v with hw | hw <;> rw [hw]
    · exact ⟨fun r _ => by cases r <;> rfl, .inl rfl⟩
    · exact ⟨fun r hne => (readReg_lose _ hne).trans (by cases r <;> rfl), .inr (withLost_eq s.status)⟩
  | engineCompletes _ _ _ _ _ _ _ _ _ hx => exact absurd (execCase_of_next hx).idle hrun
  | engineIllegal => exact absurd rfl hrun
  | assertReset => exact absurd rfl hrun
  | releaseReset =>
    rw [State.releaseReset_of_released (s := s.turnTaken) hr]
    exact ⟨fun r _ => by cases r <;> rfl, .inl rfl⟩
  | _ => exact ⟨fun r _ => by cases r <;> rfl, .inl rfl⟩

/-! ## NOP and CLEAR -/

/-- After a successful command LASTOP is the OP field of the word that was accepted (R101, R104). -/
theorem lastOp_okStatus_acceptStatus (st w : Word) : (okStatus (acceptStatus st w)).extractLsb' 16 8 = cmdOp w := by
  rw [← completedStatus_eq, ← acceptedStatus_eq]
  exact (Status.lastOp_completedStatus _).trans (Status.lastOp_withLastOp _ _)

/-- While ERR = 1 CLEAR's word is the only one accepted (R101, R111). -/
theorem accepts_of_err {s : State} (herr : s.err = true) (w : Word) :
    s.accepts w = true ↔ s.busy = false ∧ w = clearWord := by
  simp [accepts_iff, herr]

/-- Settles O31: NOP commits nothing, and its word is not CLEAR's. -/
theorem nopResult : Obligations.NopResult := by
  unfold Obligations.NopResult
  refine ⟨decodeWord_encode (i := .nop) rfl, fun s => ?_, fun st => lastOp_okStatus_acceptStatus st _, fun s herr => ?_⟩
  · rw [← complete_nil]
    exact execNop_spec s
  · have hne : (0x0000000000000000#64 : Word) ≠ clearWord := by decide
    exact Bool.eq_false_iff.mpr fun hacc => hne ((accepts_of_err herr _).mp hacc).2

/-- CLEAR has one word (R82, R111). -/
theorem decodeWord_eq_clear_iff (w : Word) : decodeWord w = .ok .clear ↔ w = clearWord := by
  rw [decodeWord_eq_ok_iff]
  exact ⟨fun h => h.2.symm, fun h => ⟨rfl, h.symm⟩⟩

/-- A legal word with CLEAR's OP field is CLEAR's word (R82). -/
theorem eq_clear_of_cmdOp {w : Word} {i : Instr} (hd : decodeWord w = .ok i) (hop : cmdOp w = 0x01#8) : i = .clear := by
  obtain ⟨hi, rfl⟩ := decodeWord_eq_ok_iff.mp hd
  obtain ⟨hopcode, -, -⟩ := encode_fields hi
  rw [hop] at hopcode
  cases i with
  | clear => rfl
  | _ => cases hopcode

/-- Settles O32: CLEAR's word is the only legal one with its OP field and the only one accepted in the error state, and its commit set is
one mask of STATUS. -/
theorem clearResult : Obligations.ClearResult := by
  unfold Obligations.ClearResult
  refine ⟨decodeWord_eq_clear_iff, fun w hop hne => ?_, fun s w herr => accepts_of_err herr w,
    fun st => lastOp_okStatus_acceptStatus st _, fun s => ?_⟩
  · cases hd : decodeWord w with
    | error e => exact ⟨e, rfl⟩
    | ok i =>
      obtain rfl := eq_clear_of_cmdOp hd hop
      exact absurd ((decodeWord_eq_clear_iff w).mp hd) hne
  · rw [← complete_clear]
    exact execClear_spec s

end Sys2Proof.Machine

/-! SUPPORT. Family 41_modexp: modular exponentiation under both reference algorithms, Diffie–Hellman agreement, and Euler's criterion.

MODEXP and LEGENDRE share the datapath `modPow`, which is the mathematical power (`modPow_eq`). So each claim about a command is its spec
lemma with the power written out, and what is left is arithmetic modulo OPM. -/

namespace Sys2Proof.Machine

/-! ## The two reference algorithms -/

/-- The loop of LADDER: two neighbouring powers for the bits at and above `i` become the power for all bits (R123). -/
theorem ladderLoop_spec (b e m : Nat) : ∀ i r0 r1, r0 = b ^ (e >>> i) % m → r1 = b ^ (e >>> i + 1) % m →
    ladderLoop e m i r0 r1 = b ^ e % m
  | 0, r0, r1, h0, _ => by simpa [ladderLoop] using h0
  | i + 1, r0, r1, h0, h1 => by
    have hstep := shiftRight_step e i
    cases hb : e.testBit i with
    | true =>
      have he : e >>> i = e >>> (i + 1) + (e >>> (i + 1) + 1) := by simpa [hb, two_mul, add_assoc] using hstep
      have h0' : r0 * r1 % m = b ^ (e >>> i) % m := by rw [h0, h1, ← Nat.mul_mod, ← pow_add, he]
      have h1' : r1 * r1 % m = b ^ (e >>> i + 1) % m := by
        rw [h1, ← Nat.mul_mod, ← pow_add, he]
        congr 2
        omega
      simpa [ladderLoop, hb] using ladderLoop_spec b e m i _ _ h0' h1'
    | false =>
      have he : e >>> i = e >>> (i + 1) + e >>> (i + 1) := by simpa [hb, two_mul] using hstep
      have h0' : r0 * r0 % m = b ^ (e >>> i) % m := by rw [h0, ← Nat.mul_mod, ← pow_add, he]
      have h1' : r0 * r1 % m = b ^ (e >>> i + 1) % m := by rw [h0, h1, ← Nat.mul_mod, ← pow_add, he, add_assoc]
      simpa [ladderLoop, hb] using ladderLoop_spec b e m i _ _ h0' h1'

/-- LADDER computes the modular power of R121 on every 64-bit exponent. -/
theorem ladder_eq (b e m : Nat) (he : e < 2 ^ 64) : ladder b e m = b ^ e % m := by
  have htop : e >>> 64 = 0 := by rw [Nat.shiftRight_eq_div_pow, Nat.div_eq_of_lt he]
  exact ladderLoop_spec b e m 64 _ _ (by rw [htop, pow_zero]) (by rw [htop, zero_add, pow_one])

/-- Settles O34, by the loop invariant of each algorithm. -/
theorem referenceAlgorithmsAgree : Obligations.ReferenceAlgorithmsAgree := by
  unfold Obligations.ReferenceAlgorithmsAgree
  intro algo b e m _ he _ _
  cases algo with
  | binaryLR => exact modPow_eq b e m he
  | ladder => exact ladder_eq b e m he

/-! ## MODEXP -/

/-- The modulus is zero as a number when the register is. -/
theorem State.m_eq_zero_iff (s : State) : s.m = 0 ↔ s.opm = 0#64 := BitVec.toNat_inj (y := 0#64)

/-- The modular power of the operands, written out (R121, R124). -/
theorem State.modPow_operands (s : State) : modPow s.a s.b s.m = s.opa.toNat ^ s.opb.toNat % s.opm.toNat :=
  modPow_eq _ _ _ s.opb.isLt

/-- MODEXP with a nonzero modulus, its power written out (R124). -/
theorem exec_modexp_of_ne_zero {s : State} (hm : s.opm ≠ 0#64) :
    exec .modexp s = .next { s with
      result := BitVec.ofNat 64 (s.opa.toNat ^ s.opb.toNat % s.opm.toNat), status := okStatus s.status, engine := .idle } := by
  rcases execModexp_spec s with ⟨h0, -⟩ | ⟨-, h⟩
  · exact absurd (s.m_eq_zero_iff.mp h0) hm
  · rw [complete_result, s.modPow_operands] at h
    exact h

/-- Settles O33, by the two answers of MODEXP. -/
theorem modexpResult : Obligations.ModexpResult := by
  unfold Obligations.ModexpResult
  refine ⟨decodeWord_encode (i := .modexp) rfl, fun s => ⟨exec_modexp_of_ne_zero, fun hm => ?_⟩⟩
  rcases execModexp_spec s with ⟨-, h⟩ | ⟨hne, -⟩
  · exact h.trans (congrArg Host.Outcome.next (takeError_eq s .modulus))
  · exact absurd (s.m_eq_zero_iff.mpr hm) hne

/-! ## Diffie–Hellman agreement -/

/-- A residue of a nonzero 64-bit modulus fits RESULT (R120). -/
theorem toNat_ofNat_mod {q : Word} (hq : q ≠ 0#64) (v : Nat) : (BitVec.ofNat 64 (v % q.toNat)).toNat = v % q.toNat := by
  have hpos : 0 < q.toNat := Nat.pos_of_ne_zero fun h => hq (BitVec.eq_of_toNat_eq h)
  exact toNat_toWord ((Nat.mod_lt v hpos).trans q.isLt)

/-- The power of a public key is the power for the product of the exponents (R125). -/
theorem pow_mod_pow_mod (g x y q : Nat) : (g ^ y % q) ^ x % q = g ^ (x * y) % q := by
  rw [← Nat.pow_mod, ← pow_mul, mul_comm]

/-- Settles O37: either key is a power of a public key, so the exponents multiply. -/
theorem diffieHellmanAgreement : Obligations.DiffieHellmanAgreement := by
  unfold Obligations.DiffieHellmanAgreement
  intro s g x y q hq
  refine ⟨_, _, _, _, exec_modexp_of_ne_zero hq, exec_modexp_of_ne_zero hq, exec_modexp_of_ne_zero hq,
    exec_modexp_of_ne_zero hq, ?_, ?_⟩
  · rw [toNat_ofNat_mod hq, toNat_ofNat_mod hq, pow_mod_pow_mod, pow_mod_pow_mod, mul_comm]
  · rw [toNat_ofNat_mod hq, toNat_ofNat_mod hq, pow_mod_pow_mod]

/-! ## LEGENDRE -/

/-- The Euler value of the operands, its power written out (R127). -/
theorem State.eulerValue_eq (s : State) :
    eulerValue s.a s.m = s.opa.toNat ^ ((s.opm.toNat - 1) / 2) % s.opm.toNat :=
  modPow_eq _ _ _ (by have := s.opm.isLt; unfold State.m; omega)

/-- Settles O35, by the five answers of LEGENDRE. -/
theorem legendreResult : Obligations.LegendreResult := by
  unfold Obligations.LegendreResult
  refine ⟨decodeWord_encode (i := .legendre) rfl, fun s t ht => ?_⟩
  have hspec := execLegendre_spec s
  simp only [complete_result, takeError_eq, State.eulerValue_eq, ← ht] at hspec
  rcases hspec with ⟨hbad, h⟩ | ⟨hgood, hvalue⟩
  · exact ⟨fun _ => h, fun h3 hodd => by simp only [State.m] at hbad; omega⟩
  · refine ⟨fun hbad => absurd hbad hgood, fun h3 hodd => ?_⟩
    simp only [State.m] at hvalue
    rcases hvalue with ⟨h0, h⟩ | ⟨h1, h⟩ | ⟨hm1, h0, h1, h⟩ | ⟨h0, h1, hm1, h⟩
    · exact ⟨fun _ => h, by omega, by omega, by omega⟩
    · exact ⟨by omega, fun _ => h, by omega, by omega⟩
    · exact ⟨by omega, by omega, fun _ => h, by omega⟩
    · exact ⟨by omega, by omega, by omega, fun _ _ _ => h⟩

section EulerCriterion
variable {p : Nat} [Fact p.Prime]

/-- Euler's criterion in natural numbers: the Euler value is the residue of the Legendre symbol (R127). -/
theorem euler_eq_legendreSym_emod (hp : p ≠ 2) (a : Nat) :
    ((a ^ ((p - 1) / 2) % p : Nat) : ℤ) = legendreSym p a % p := by
  have hhalf : (p - 1) / 2 = p / 2 := by
    have := (Fact.out : p.Prime).eq_two_or_odd
    omega
  have hcast : (((a ^ (p / 2) : Nat) : ℤ) : ZMod p) = (legendreSym p a : ZMod p) := by
    rw [legendreSym.eq_pow]
    push_cast
    rfl
  rw [hhalf, Int.natCast_mod]
  exact (ZMod.intCast_eq_intCast_iff' _ _ p).mp hcast

/-- The three values of the Legendre symbol. -/
theorem legendreSym_trichotomy (a : ℤ) : legendreSym p a = 0 ∨ legendreSym p a = 1 ∨ legendreSym p a = -1 :=
  quadraticChar_isQuadratic (ZMod p) a

end EulerCriterion

/-- Settles O36: each value of the symbol is the answer LEGENDRE gives to that Euler value. -/
theorem legendreIsTheLegendreSymbol : Obligations.LegendreIsTheLegendreSymbol := by
  unfold Obligations.LegendreIsTheLegendreSymbol
  intro s p _ hp hm
  have hprime : p.Prime := Fact.out
  have hodd : p % 2 = 1 := hprime.eq_two_or_odd.resolve_left hp
  have h3 : 3 ≤ p := by have := hprime.two_le; omega
  have heuler := euler_eq_legendreSym_emod hp s.opa.toNat
  obtain ⟨-, hanswers⟩ := legendreResult
  obtain ⟨-, hvalid⟩ := hanswers s _ rfl
  obtain ⟨hzero, hone, hneg, -⟩ := hvalid (by omega) (by omega)
  simp only [hm] at hzero hone hneg
  rcases legendreSym_trichotomy (p := p) s.opa.toNat with hsym | hsym | hsym <;> rw [hsym] at heuler ⊢
  · rw [Int.zero_emod] at heuler
    exact hzero (by omega)
  · rw [Int.emod_eq_of_lt (by omega) (by omega)] at heuler
    exact hone (by omega)
  · rw [← Int.add_emod_right, Int.emod_eq_of_lt (by omega) (by omega)] at heuler
    exact hneg (by omega)

end Sys2Proof.Machine

/-! SUPPORT. Family 42_bbs: seeding the quadratic-residue CSPRNG, drawing bits from it, and drawing a key.

BBS_NEXT and KEYGEN share the run `bbsRun`, whose value is the iterated squaring and the weighted sum of its low bits (`bbsRun_spec`). So
each claim about a command is its spec lemma with the run written out, and the laws that join commands are laws of `bbsRun`. -/

namespace Sys2Proof.Machine

/-! ## BBS_SEED -/

/-- Settles O38, by the three answers of BBS_SEED. -/
theorem bbsSeedResult : Obligations.BbsSeedResult := by
  unfold Obligations.BbsSeedResult
  refine ⟨decodeWord_encode (i := .bbsSeed) rfl, fun s => ?_⟩
  have hspec := execBbsSeed_spec s
  simp only [complete_seed, takeError_eq, State.a, State.b, State.m, BitVec.toNat_inj, BitVec.ofNat_toNat, BitVec.setWidth_eq, ne_eq,
    ← Nat.dvd_iff_mod_eq_zero, ← pow_two] at hspec
  rcases hspec with ⟨hbad, h⟩ | ⟨hb, hm, hne, hab, ham, hrange⟩
  · exact ⟨fun _ => h, fun hb hm hne hab ham => absurd hbad (by tauto)⟩
  · refine ⟨fun hbad => absurd hbad (by tauto), fun _ _ _ _ _ => ?_⟩
    rcases hrange with ⟨hbig, h⟩ | ⟨hsmall, h⟩
    · exact ⟨fun _ => h, fun hlt => absurd hlt (Nat.not_lt.mpr hbig)⟩
    · exact ⟨fun hge => absurd hsmall (Nat.not_lt.mpr hge), fun _ => h⟩

/-- A BBS_SEED that leaves the error state off was a success: the generator is seeded with a positive 64-bit modulus and the square of
the seed (R142). -/
theorem seeded_of_err_eq_false {s t : State} (hexec : exec .bbsSeed s = .next t) (ht : t.err = false) :
    t.bbsv = true ∧ 0 < s.b * s.m ∧ t.n = s.b * s.m ∧ t.x = s.a ^ 2 % (s.b * s.m) := by
  have herror : ∀ e, execBbsSeed s ≠ .next (s.takeError e) := by
    rintro e he
    obtain rfl := Host.Outcome.next.inj (hexec.symm.trans he)
    simp [State.err] at ht
  rcases execBbsSeed_spec s with ⟨-, he⟩ | ⟨hb, hm, -, -, -, ⟨-, he⟩ | ⟨hlt, he⟩⟩
  · exact absurd he (herror _)
  · exact absurd he (herror _)
  · obtain rfl := Host.Outcome.next.inj (hexec.symm.trans he)
    have hpos : 0 < s.b * s.m := Nat.mul_pos (by omega) (by omega)
    refine ⟨by simp [State.complete, State.bbsv], hpos, toNat_toWord hlt, ?_⟩
    rw [pow_two]
    exact toNat_toWord ((Nat.mod_lt _ hpos).trans hlt)

/-! ## BBS_NEXT -/

/-- The bits of `c` steps fit `c` bits (R144). -/
theorem bbsRun_bits_lt (n c x : Nat) : (bbsRun n c x 0).2 < 2 ^ c := by simpa using bbsRun_lt n c x 0

/-- The state after a successful BBS_NEXT of `c` bits (R145). -/
def State.drawn (s : State) (c : Nat) : State := s.complete [.bbsX (bbsRun s.n c s.x 0).1, .result (bbsRun s.n c s.x 0).2]

/-- A seeded generator gives up to 64 bits (R145). -/
theorem exec_bbsNext_of_seeded {s : State} {c : Nat} (hv : s.bbsv = true) (hc : c ≤ 64) :
    exec (.bbsNext c) s = .next (s.drawn c) := by
  rcases execBbsNext_spec c s with ⟨hv', -⟩ | ⟨-, hc', -⟩ | ⟨-, -, h⟩
  · simp [hv] at hv'
  · omega
  · exact h

section Drawn
variable (s : State) (c : Nat)

/-- The residue and the bits drawn, written out (R143, R144). -/
theorem State.drawn_eq : s.drawn c = { s with
    bbsX := BitVec.ofNat 64 ((fun y => y * y % s.bbsN.toNat)^[c] s.bbsX.toNat)
    result := BitVec.ofNat 64
      (∑ k ∈ Finset.Icc 1 c, ((fun y => y * y % s.bbsN.toNat)^[k] s.bbsX.toNat % 2) * 2 ^ (c - k))
    status := okStatus s.status
    engine := .idle } := by
  rw [State.drawn, complete_next, bbsRun_spec, zero_mul, zero_add]
  rfl

@[simp] theorem State.drawn_bbsX : (s.drawn c).bbsX = toWord (bbsRun s.n c s.x 0).1 := rfl
@[simp] theorem State.drawn_result : (s.drawn c).result = toWord (bbsRun s.n c s.x 0).2 := rfl
@[simp] theorem State.drawn_n : (s.drawn c).n = s.n := rfl
@[simp] theorem State.drawn_bbsv : (s.drawn c).bbsv = s.bbsv := by simp [State.drawn, State.complete, State.bbsv]

/-- A residue below the modulus fits BBS_X (R143). -/
theorem State.drawn_x (hx : s.x < s.n) : (s.drawn c).x = (bbsRun s.n c s.x 0).1 :=
  toNat_toWord ((bbsRun_residue_lt s.n c s.x 0 hx).trans s.bbsN.isLt)

/-- Up to 64 bits fit RESULT (R145). -/
theorem State.drawn_result_toNat (hc : c ≤ 64) : (s.drawn c).result.toNat = (bbsRun s.n c s.x 0).2 :=
  toNat_toWord ((bbsRun_bits_lt s.n c s.x).trans_le (Nat.pow_le_pow_right (by omega) hc))

end Drawn

/-- The split law of a run: the first `a` bits stand in front of the next `b` (R145). -/
theorem bbsRun_split (n a b x : Nat) :
    bbsRun n (a + b) x 0 = ((bbsRun n b (bbsRun n a x 0).1 0).1,
      (bbsRun n a x 0).2 * 2 ^ b + (bbsRun n b (bbsRun n a x 0).1 0).2) := by
  obtain ⟨hresidue, hbits⟩ := bbsRun_accumulator n b (bbsRun n a x 0).1 (bbsRun n a x 0).2
  rw [bbsRun_add]
  exact Prod.ext hresidue hbits

/-- Settles O39, by the three answers of BBS_NEXT and the split law of a run. -/
theorem bbsNextResult : Obligations.BbsNextResult := by
  unfold Obligations.BbsNextResult
  refine ⟨fun c hc => decodeWord_encode (i := .bbsNext c) (decide_eq_true hc),
    fun s c => ⟨fun hv => ?_, fun hv hc => ?_, fun hv hc => ?_⟩, fun s a b hv hx hab => ?_⟩
  · rcases execBbsNext_spec c s with ⟨-, h⟩ | ⟨hv', -⟩ | ⟨hv', -⟩
    · exact h.trans (congrArg Host.Outcome.next (takeError_eq s .noSeed))
    all_goals simp [hv] at hv'
  · rcases execBbsNext_spec c s with ⟨hv', -⟩ | ⟨-, -, h⟩ | ⟨-, hc', -⟩
    · simp [hv] at hv'
    · exact h.trans (congrArg Host.Outcome.next (takeError_eq s .count))
    · omega
  · rw [exec_bbsNext_of_seeded hv hc, State.drawn_eq]
  · have hsplit := bbsRun_split s.n a b s.x
    have hmid := s.drawn_x a hx
    refine ⟨s.drawn a, (s.drawn a).drawn b, s.drawn (a + b), exec_bbsNext_of_seeded hv (by omega),
      exec_bbsNext_of_seeded (by simpa using hv) (by omega), exec_bbsNext_of_seeded hv hab, ?_, ?_⟩
    · rw [State.drawn_result_toNat _ _ hab, State.drawn_result_toNat _ _ (by omega), State.drawn_result_toNat _ _ (by omega),
        State.drawn_n, hmid, hsplit]
    · rw [State.drawn_bbsX, State.drawn_bbsX, State.drawn_n, hmid, hsplit]

/-- Squaring modulo `n` `c` times raises to the power `2 ^ c` (R143). -/
theorem iterate_square_mod (n a c : Nat) : (fun y => y * y % n)^[c] (a % n) = a ^ 2 ^ c % n := by
  induction c with
  | zero => simp
  | succ c ih => rw [Function.iterate_succ_apply', ih, ← Nat.mul_mod, ← pow_two, ← pow_mul, ← pow_succ]

/-- Settles O40: the seed's square is squared `c` times more. -/
theorem seededResidueClosedForm : Obligations.SeededResidueClosedForm := by
  unfold Obligations.SeededResidueClosedForm
  intro s t c _ hexec ht hc
  obtain ⟨hv, hpos, hn, hx⟩ := seeded_of_err_eq_false hexec ht
  have hlt : t.x < t.n := by rw [hn, hx]; exact Nat.mod_lt _ hpos
  refine ⟨t.drawn c, exec_bbsNext_of_seeded hv hc, ?_⟩
  calc (t.drawn c).x = (bbsRun t.n c t.x 0).1 := t.drawn_x c hlt
    _ = (fun y => y * y % t.n)^[c] t.x := by rw [bbsRun_spec]
    _ = (s.a ^ 2) ^ 2 ^ c % (s.b * s.m) := by rw [hn, hx, iterate_square_mod]
    _ = s.a ^ 2 ^ (c + 1) % (s.b * s.m) := by rw [← pow_mul, ← pow_succ']

/-! ## KEYGEN -/

/-- The next ten bits, the key KEYGEN draws (R147). -/
def State.nextKey (s : State) : Nat := (bbsRun s.n 10 s.x 0).2

/-- The key drawn is a 10-bit key (R147). -/
theorem State.nextKey_lt (s : State) : s.nextKey < 2 ^ 10 := bbsRun_bits_lt s.n 10 s.x

/-- The key drawn, the first bit as key bit 9 (R144, R147). -/
theorem State.nextKey_eq (s : State) :
    s.nextKey = ∑ j ∈ Finset.Icc 1 10, ((fun y => y * y % s.bbsN.toNat)^[j] s.bbsX.toNat % 2) * 2 ^ (10 - j) := by
  rw [State.nextKey, bbsRun_spec, zero_mul, zero_add]
  rfl

/-- The state after a successful KEYGEN (R148). -/
def State.keyed (s : State) : State :=
  s.complete [.bbsX (bbsRun s.n 10 s.x 0).1, .key s.nextKey, .subkeys (packSubkeys (Machine.schedule s.tables s.nextKey)), .skv true,
    .result s.nextKey]

/-- A seeded generator gives a key (R148). -/
theorem exec_keygen_of_seeded {s : State} (hv : s.bbsv = true) : exec .keygen s = .next s.keyed := by
  rcases execKeygen_spec s with ⟨hv', -⟩ | ⟨-, h⟩
  · simp [hv] at hv'
  · exact h

section Keyed
variable (s : State)

@[simp] theorem State.keyed_bbsX : s.keyed.bbsX = toWord (bbsRun s.n 10 s.x 0).1 := by simp [State.keyed, State.complete]
@[simp] theorem State.keyed_key : s.keyed.key = toWord s.nextKey := by simp [State.keyed, State.complete]
@[simp] theorem State.keyed_subkeys : s.keyed.subkeys = toWord (packSubkeys (Machine.schedule s.tables s.nextKey)) := by
  simp [State.keyed, State.complete]
@[simp] theorem State.keyed_result : s.keyed.result = toWord s.nextKey := by simp [State.keyed, State.complete]
@[simp] theorem State.keyed_tables : s.keyed.tables = s.tables := by simp [State.keyed, State.complete]

/-- Ten bits fit KEY (R27, R148). -/
@[simp] theorem State.keyed_k : s.keyed.k = s.nextKey := by
  rw [State.k, State.keyed_key, toNat_toWord (s.nextKey_lt.trans (by norm_num))]

end Keyed

/-- KEYSCHED with a 10-bit key succeeds (R177). -/
theorem exec_keysched_of_lt {s : State} (hk : s.k < 2 ^ 10) :
    exec .keysched s = .next (s.complete
      [.subkeys (packSubkeys (schedule s.tables s.k)), .skv true, .result (packSubkeys (schedule s.tables s.k))]) := by
  rcases execKeysched_spec s with ⟨hk', -⟩ | ⟨-, h⟩
  · omega
  · exact h

/-- Settles O41: KEYGEN draws what BBS_NEXT 10 draws, and the key it leaves is one KEYSCHED takes. -/
theorem keygenResult : Obligations.KeygenResult := by
  unfold Obligations.KeygenResult
  refine ⟨decodeWord_encode (i := .keygen) rfl, fun s k hk => ?_, fun s hv => ?_⟩
  · obtain rfl : k = s.nextKey := hk.trans s.nextKey_eq.symm
    refine ⟨s.nextKey_lt, fun hv => ?_, fun hv => ?_⟩
    · rcases execKeygen_spec s with ⟨-, h⟩ | ⟨hv', -⟩
      · exact h.trans (congrArg Host.Outcome.next (takeError_eq s .noSeed))
      · simp [hv] at hv'
    · rw [exec_keygen_of_seeded hv, State.keyed, complete_keygen, bbsRun_spec]
      rfl
  · refine ⟨s.keyed, s.drawn 10, _, exec_keygen_of_seeded hv, exec_bbsNext_of_seeded hv (by omega),
      exec_keysched_of_lt (by simpa using s.nextKey_lt), ?_, ?_, ?_, ?_, ?_, ?_⟩
    · rw [State.keyed_result, State.drawn_result, State.nextKey]
    · rw [State.keyed_bbsX, State.drawn_bbsX]
    all_goals simp [State.complete, State.skv, State.err]

end Sys2Proof.Machine

/-! SUPPORT. Family 43_feistel: the Feistel cipher commands, the key schedule and the permutation unit.

A table whose entries are consecutive positions reads one field, so SW, LS1 and LS2 are rotations of fields. A Feistel round undoes itself,
IP and IPINV undo each other, and SW undoes itself: so DEC undoes ENC layer by layer. Each claim about a command is then its spec lemma
with these functions written out. -/

namespace Sys2Proof.Machine

/-! ## Tables that rotate fields -/

/-- A permutation table in two parts: the first part gives the high bits (R162). -/
theorem perm_append (w v : Nat) (xs ys : List Nat) : perm (xs ++ ys) w v = perm xs w v * 2 ^ ys.length + perm ys w v := by
  rw [perm, List.foldl_append]
  exact perm_foldl_spec w v ys (perm xs w v)

/-- Consecutive table positions read one field, which ends `lo` bits above bit 0 (R9, R10). -/
theorem perm_consecutive (w v lo : Nat) : ∀ n p, p + n + lo = w + 1 → perm (List.range' p n) w v = v / 2 ^ lo % 2 ^ n
  | 0, p, _ => by simp [perm, Nat.mod_one]
  | n + 1, p, h => by
    have hbit : (v.testBit (w - p)).toNat = v / 2 ^ lo / 2 ^ n % 2 := by
      rw [Nat.div_div_eq_div_mul, ← pow_add, show w - p = lo + n by omega, Nat.toNat_testBit]
    rw [List.range'_succ, perm_cons, perm_consecutive w v lo n (p + 1) (by omega), List.length_range', hbit, Nat.mod_pow_succ]
    ring

/-- The table that starts `s` positions into a field and wraps round rotates the field left by `s` (R11, R160). -/
theorem perm_rotate (w v lo n p s : Nat) (hs : s ≤ n) (h : p + n + lo = w + 1) :
    perm (List.range' (p + s) (n - s) ++ List.range' p s) w v = rotl n (v / 2 ^ lo % 2 ^ n) s := by
  have hn : 2 ^ n = 2 ^ (n - s) * 2 ^ s := by rw [← pow_add, Nat.sub_add_cancel hs]
  have hlow : v / 2 ^ lo % 2 ^ n * 2 ^ s % 2 ^ n = v / 2 ^ lo % 2 ^ (n - s) * 2 ^ s := by
    rw [hn, Nat.mul_mod_mul_right, Nat.mod_mul_right_mod]
  have hhigh : v / 2 ^ lo % 2 ^ n / 2 ^ (n - s) = v / 2 ^ (lo + (n - s)) % 2 ^ s := by
    rw [hn, Nat.mod_mul_right_div_self, Nat.div_div_eq_div_mul, ← pow_add]
  rw [perm_append, perm_consecutive w v lo _ _ (by omega), perm_consecutive w v (lo + (n - s)) _ _ (by omega), List.length_range',
    rotl, hlow, hhigh]

/-- The table of both 5-bit key halves rotated left by `s` (R160, R167). -/
theorem perm_rotate_halves (v s : Nat) (hs : s ≤ 5) :
    perm ((List.range' (1 + s) (5 - s) ++ List.range' 1 s) ++ (List.range' (6 + s) (5 - s) ++ List.range' 6 s)) 10 v =
      rotl 5 (natField v 9 5) s * 32 + rotl 5 (natField v 4 0) s := by
  have hlen : (List.range' (6 + s) (5 - s) ++ List.range' 6 s).length = 5 := by simp [hs]
  rw [perm_append, perm_rotate 10 v 5 5 1 s hs rfl, perm_rotate 10 v 0 5 6 s hs rfl, hlen]
  rfl

/-- A subkey is P10, the table of the rotated halves, and P8 (R167). -/
theorem subkey_eq_perm (ft : FeistelTables) (k s : Nat) (hs : s ≤ 5) :
    subkey ft k s = perm ft.p8 10
      (perm ((List.range' (1 + s) (5 - s) ++ List.range' 1 s) ++ (List.range' (6 + s) (5 - s) ++ List.range' 6 s)) 10
        (perm ft.p10 10 k)) := by
  rw [perm_rotate_halves _ s hs, subkey]

/-- Settles O49: LS1 and LS2 are the tables of the halves rotated by 1 and by 2. -/
theorem keyScheduleByTables : Obligations.KeyScheduleByTables := by
  unfold Obligations.KeyScheduleByTables
  intro ft k _ _
  exact Prod.ext (subkey_eq_perm ft k k1Shift (by decide)) (subkey_eq_perm ft k k2Shift (by decide))

/-- SW swaps the halves of a block (R160). -/
theorem perm_swTable (v : Nat) : perm swTable 8 v = v % 16 * 16 + v / 16 % 16 := by
  have h : perm swTable 8 v = rotl 8 (v / 2 ^ 0 % 2 ^ 8) 4 := perm_rotate 8 v 0 8 1 4 (by decide) rfl
  rw [h, rotl]
  omega

/-! ## The layers of the cipher, each undone -/

/-- The left half of a block (R9, R166). -/
theorem natField_left (v : Nat) : natField v 7 4 = v / 16 % 16 := rfl

/-- The right half of a block (R9, R166). -/
theorem natField_right (v : Nat) : natField v 3 0 = v % 16 := congrArg (· % 16) (Nat.div_one v)

/-- A Feistel round, written out (R166). -/
theorem feistelRound_eq (ft : FeistelTables) (b sk : Nat) :
    feistelRound ft b sk = (b / 16 % 16 ^^^ roundFunction ft (b % 16) sk) * 16 + b % 16 := by
  rw [feistelRound, natField_left, natField_right]

/-- The right half passes through a round (R174). -/
theorem feistelRound_mod (ft : FeistelTables) (b sk : Nat) : feistelRound ft b sk % 16 = b % 16 := by
  rw [feistelRound_eq]
  omega

/-- A second round with the same subkey restores the block (R166, R174). -/
theorem feistelRound_feistelRound {ft : FeistelTables} (hft : ft.legal = true) {b : Nat} (hb : b < 2 ^ 8) (sk : Nat) :
    feistelRound ft (feistelRound ft b sk) sk = b := by
  obtain ⟨hright, hleft⟩ := feistelRound_halves hft b sk
  rw [feistelRound, hleft, hright, Nat.xor_assoc, Nat.xor_self, Nat.xor_zero, natField_left, natField_right]
  omega

/-- SW undoes itself on a block (R160). -/
theorem perm_swTable_perm_swTable {b : Nat} (hb : b < 2 ^ 8) : perm swTable 8 (perm swTable 8 b) = b := by
  have hright : (b % 16 * 16 + b / 16 % 16) % 16 = b / 16 % 16 := by omega
  have hleft : (b % 16 * 16 + b / 16 % 16) / 16 % 16 = b % 16 := by omega
  rw [perm_swTable, perm_swTable, hright, hleft]
  omega

/-- IP of a value is a block under a legal record (R162). -/
theorem perm_ip_lt {ft : FeistelTables} (hft : ft.legal = true) (v : Nat) : perm ft.ip 8 v < 2 ^ 8 := by
  obtain ⟨-, -, hip, -⟩ := legal_lengths hft
  simpa [hip] using perm_lt 8 v ft.ip

/-- IPINV of a value is a block under a legal record (R162). -/
theorem perm_ipinv_lt {ft : FeistelTables} (hft : ft.legal = true) (v : Nat) : perm ft.ipinv 8 v < 2 ^ 8 := by
  obtain ⟨-, -, -, hipinv, -⟩ := legal_lengths hft
  simpa [hipinv] using perm_lt 8 v ft.ipinv

/-- IP undoes IPINV on a block: a left inverse on the 256 blocks is an inverse (R163). -/
theorem legal_ip_ipinv {ft : FeistelTables} (hft : ft.legal = true) {v : Nat} (hv : v < 2 ^ 8) :
    perm ft.ip 8 (perm ft.ipinv 8 v) = v := by
  have hleft : Set.LeftInvOn (perm ft.ipinv 8) (perm ft.ip 8) (Finset.range (2 ^ 8)) := fun b hb =>
    legal_ipinv_ip hft (Finset.mem_range.mp hb)
  have hmaps : Set.MapsTo (perm ft.ip 8) (Finset.range (2 ^ 8)) (Finset.range (2 ^ 8)) := fun b _ =>
    Finset.mem_coe.mpr (Finset.mem_range.mpr (perm_ip_lt hft b))
  obtain ⟨b, hb, rfl⟩ := Finset.surjOn_of_injOn_of_card_le _ hmaps hleft.injOn le_rfl (Finset.mem_coe.mpr (Finset.mem_range.mpr hv))
  rw [hleft hb]

/-- ENC gives a block under a legal record (R168). -/
theorem encBlock_lt {ft : FeistelTables} (hft : ft.legal = true) (b k1 k2 : Nat) : encBlock ft b k1 k2 < 2 ^ 8 :=
  perm_ipinv_lt hft _

/-- DEC undoes ENC, layer by layer from the outside in (R168, R183). -/
theorem decBlock_encBlock {ft : FeistelTables} (hft : ft.legal = true) {b : Nat} (hb : b < 2 ^ 8) (k1 k2 : Nat) :
    decBlock ft (encBlock ft b k1 k2) k1 k2 = b := by
  have hsw : perm swTable 8 (feistelRound ft (perm ft.ip 8 b) k1) < 2 ^ 8 := perm_lt 8 _ swTable
  rw [decBlock, encBlock, encBlock, legal_ip_ipinv hft (feistelRound_lt hft _ _), feistelRound_feistelRound hft hsw,
    perm_swTable_perm_swTable (feistelRound_lt hft _ _), feistelRound_feistelRound hft (perm_ip_lt hft b), legal_ipinv_ip hft hb]

/-- ENC maps different blocks to different results (R163, R168). -/
theorem encBlock_injOn {ft : FeistelTables} (hft : ft.legal = true) (k1 k2 : Nat) :
    Set.InjOn (fun b => encBlock ft b k1 k2) {b | b < 2 ^ 8} :=
  Set.LeftInvOn.injOn (f₁' := fun c => decBlock ft c k1 k2) fun _ hb => decBlock_encBlock hft hb k1 k2

/-! ## Commands that commit RESULT alone -/

/-- The state after a command that commits the value `v` to RESULT and nothing else (R104). -/
def State.answered (s : State) (v : Nat) : State :=
  { s with result := BitVec.ofNat 64 v, status := okStatus s.status, engine := .idle }

section Answered
variable (s : State) (v : Nat)

theorem State.complete_eq_answered : s.complete [.result v] = s.answered v := complete_result s v

@[simp] theorem State.answered_err : (s.answered v).err = s.err := by
  rw [← s.complete_eq_answered]; simp [State.complete, State.err]
@[simp] theorem State.answered_skv : (s.answered v).skv = s.skv := by
  rw [← s.complete_eq_answered]; simp [State.complete, State.skv]

/-- A value of up to 64 bits fits RESULT (R12). -/
theorem State.answered_result_toNat {n : Nat} (hv : v < 2 ^ n) (hn : n ≤ 64) : (s.answered v).result.toNat = v :=
  toNat_toWord (hv.trans_le (Nat.pow_le_pow_right (by omega) hn))

end Answered

section Answers
variable {s : State} {o : Outcome} {v : Nat}

/-- The answers of a block command: NOKEY, then WIDTH, then its value (R180, R183, R202). -/
theorem blockCommand_answers
    (h : (s.skv = false ∧ o = .next (s.takeError .noKey)) ∨ (s.skv = true ∧ 2 ^ 8 ≤ s.a ∧ o = .next (s.takeError .width)) ∨
      (s.skv = true ∧ s.a < 2 ^ 8 ∧ o = .next (s.complete [.result v]))) :
    (s.skv = false → o = .next (s.failed 9#4)) ∧ (s.skv = true → 2 ^ 8 ≤ s.opa.toNat → o = .next (s.failed 8#4)) ∧
      (s.skv = true → s.opa.toNat < 2 ^ 8 → o = .next (s.answered v)) := by
  simp only [takeError_eq, State.complete_eq_answered, State.a] at h
  rcases h with ⟨hk, h⟩ | ⟨hk, ha, h⟩ | ⟨hk, ha, h⟩
  · exact ⟨fun _ => h, fun hk' => by simp [hk] at hk', fun hk' => by simp [hk] at hk'⟩
  · exact ⟨fun hk' => by simp [hk] at hk', fun _ _ => h, fun _ ha' => absurd ha (Nat.not_le.mpr ha')⟩
  · exact ⟨fun hk' => by simp [hk] at hk', fun _ ha' => absurd ha (Nat.not_lt.mpr ha'), fun _ _ => h⟩

/-- The answers of a round command on an operand of `w` bits and a subkey: WIDTH, or its value (R171, R174). -/
theorem roundCommand_answers {w : Nat}
    (h : ((2 ^ w ≤ s.a ∨ 2 ^ 8 ≤ s.b) ∧ o = .next (s.takeError .width)) ∨
      (s.a < 2 ^ w ∧ s.b < 2 ^ 8 ∧ o = .next (s.complete [.result v]))) :
    ((2 ^ w ≤ s.opa.toNat ∨ 2 ^ 8 ≤ s.opb.toNat) → o = .next (s.failed 8#4)) ∧
      (s.opa.toNat < 2 ^ w → s.opb.toNat < 2 ^ 8 → o = .next (s.answered v)) := by
  simp only [takeError_eq, State.complete_eq_answered, State.a, State.b] at h
  rcases h with ⟨hwide, h⟩ | ⟨ha, hb, h⟩
  · exact ⟨fun _ => h, fun ha hb => by omega⟩
  · exact ⟨fun hwide => by omega, fun _ _ => h⟩

end Answers

/-! ## KEYSCHED -/

/-- Settles O42, by the two answers of KEYSCHED. -/
theorem keyschedResult : Obligations.KeyschedResult := by
  unfold Obligations.KeyschedResult
  refine ⟨decodeWord_encode (i := .keysched) rfl, fun s => ⟨fun hk => ?_, fun hk => ?_⟩⟩
  · rcases execKeysched_spec s with ⟨-, h⟩ | ⟨hk', -⟩
    · exact h.trans (congrArg Host.Outcome.next (takeError_eq s .width))
    · exact absurd hk' (Nat.not_lt.mpr hk)
  · rw [exec_keysched_of_lt hk, complete_keysched]
    rfl

/-! ## ENC and DEC -/

/-- SK1 is SUBKEYS[15:8] (R28). -/
theorem State.sk1_eq (s : State) : s.sk1 = (s.subkeys.extractLsb' 8 8).toNat := natField_toNat s.subkeys 15 8

/-- SK2 is SUBKEYS[7:0] (R28). -/
theorem State.sk2_eq (s : State) : s.sk2 = (s.subkeys.extractLsb' 0 8).toNat := natField_toNat s.subkeys 7 0

/-- The pipeline of ENC, written out (R168). -/
theorem encBlock_of_stages {ft : FeistelTables} {b k1 k2 b0 b1 b2 b3 : Nat} (h0 : b0 = perm ft.ip 8 b)
    (h1 : b1 = (b0 / 16 % 16 ^^^ roundFunction ft (b0 % 16) k1) * 16 + b0 % 16) (h2 : b2 = perm swTable 8 b1)
    (h3 : b3 = (b2 / 16 % 16 ^^^ roundFunction ft (b2 % 16) k2) * 16 + b2 % 16) :
    encBlock ft b k1 k2 = perm ft.ipinv 8 b3 := by
  rw [← feistelRound_eq] at h1 h3
  rw [encBlock, h3, h2, h1, h0]

/-- ENC with a key schedule and a block succeeds (R180). -/
theorem exec_enc_of_keyed {s : State} (hk : s.skv = true) (ha : s.opa.toNat < 2 ^ 8) :
    exec .enc s = .next (s.answered (encBlock s.tables s.opa.toNat s.sk1 s.sk2)) := by
  obtain ⟨-, -, hanswer⟩ := blockCommand_answers (execEnc_spec s)
  exact hanswer hk ha

/-- DEC with a key schedule and a block succeeds (R183). -/
theorem exec_dec_of_keyed {s : State} (hk : s.skv = true) (ha : s.opa.toNat < 2 ^ 8) :
    exec .dec s = .next (s.answered (decBlock s.tables s.opa.toNat s.sk1 s.sk2)) := by
  obtain ⟨-, -, hanswer⟩ := blockCommand_answers (execDec_spec s)
  exact hanswer hk ha

/-- Settles O43, by the answers of a block command and the pipeline written out. -/
theorem encResult : Obligations.EncResult := by
  unfold Obligations.EncResult
  refine ⟨decodeWord_encode (i := .enc) rfl, fun s => ?_⟩
  obtain ⟨hnoKey, hwidth, -⟩ := blockCommand_answers (execEnc_spec s)
  refine ⟨hnoKey, hwidth, fun hk ha k1 k2 b0 b1 b2 b3 hk1 hk2 h0 h1 h2 h3 => ?_⟩
  rw [exec_enc_of_keyed hk ha, s.sk1_eq, s.sk2_eq, ← hk1, ← hk2, encBlock_of_stages h0 h1 h2 h3]
  rfl

/-- Settles O44: DEC is the pipeline of ENC with the subkeys reversed. -/
theorem decResult : Obligations.DecResult := by
  unfold Obligations.DecResult
  refine ⟨decodeWord_encode (i := .dec) rfl, fun s => ?_⟩
  obtain ⟨hnoKey, hwidth, -⟩ := blockCommand_answers (execDec_spec s)
  refine ⟨hnoKey, hwidth, fun hk ha k1 k2 b0 b1 b2 b3 hk1 hk2 h0 h1 h2 h3 => ?_⟩
  rw [exec_dec_of_keyed hk ha, decBlock, s.sk1_eq, s.sk2_eq, ← hk1, ← hk2, encBlock_of_stages h0 h1 h2 h3]
  rfl

/-- Settles O48: RESULT of ENC is a block, and DEC undoes ENC on blocks. -/
theorem decryptUndoesEncrypt : Obligations.DecryptUndoesEncrypt := by
  unfold Obligations.DecryptUndoesEncrypt
  intro s hft hk ha
  have henc := exec_enc_of_keyed hk ha
  generalize hblock : encBlock s.tables s.opa.toNat s.sk1 s.sk2 = c at henc
  have hc : c < 2 ^ 8 := hblock ▸ encBlock_lt hft _ _ _
  have hresult := s.answered_result_toNat c hc (by omega)
  have hdec := exec_dec_of_keyed (s := { s.answered c with opa := (s.answered c).result }) ((s.answered_skv c).trans hk)
    (hresult.trans_lt hc)
  refine ⟨_, _, henc, hdec, hresult.trans_lt hc, s.answered_err c, (State.answered_err _ _).trans (s.answered_err c), ?_⟩
  calc toWord (decBlock s.tables (s.answered c).result.toNat s.sk1 s.sk2)
    _ = toWord s.opa.toNat := by rw [hresult, ← hblock, decBlock_encBlock hft ha]
    _ = s.opa := toWord_toNat s.opa

/-- Settles O50: equal results are equal blocks of ENC, which is injective on blocks. -/
theorem encryptionIsInjective : Obligations.EncryptionIsInjective := by
  unfold Obligations.EncryptionIsInjective
  intro s t u b c hft hk hb hc ht hu htu
  obtain rfl := Host.Outcome.next.inj ((exec_enc_of_keyed (s := { s with opa := b }) hk hb).symm.trans ht)
  obtain rfl := Host.Outcome.next.inj ((exec_enc_of_keyed (s := { s with opa := c }) hk hc).symm.trans hu)
  have hblocks := congrArg BitVec.toNat htu
  rw [State.answered_result_toNat _ _ (encBlock_lt hft _ _ _) (by omega),
    State.answered_result_toNat _ _ (encBlock_lt hft _ _ _) (by omega)] at hblocks
  exact BitVec.eq_of_toNat_eq (encBlock_injOn hft _ _ hb hc hblocks)

/-! ## FROUND -/

/-- FROUND on a block and a subkey succeeds (R174). -/
theorem exec_fround_of_lt {s : State} (ha : s.opa.toNat < 2 ^ 8) (hb : s.opb.toNat < 2 ^ 8) :
    exec .fround s = .next (s.answered (feistelRound s.tables s.opa.toNat s.opb.toNat)) :=
  (roundCommand_answers (execFround_spec s)).2 ha hb

/-- Settles O45: one round written out, and a second round restores the block. -/
theorem froundResult : Obligations.FroundResult := by
  unfold Obligations.FroundResult
  refine ⟨decodeWord_encode (i := .fround) rfl, fun s => ⟨(roundCommand_answers (execFround_spec s)).1, fun ha hb => ?_⟩,
    fun s hft ha hb => ?_⟩
  · have hleft : s.opa.toNat / 16 % 16 = s.opa.toNat / 16 := by omega
    rw [exec_fround_of_lt ha hb, feistelRound_eq, hleft]
    rfl
  · have hc : feistelRound s.tables s.opa.toNat s.opb.toNat < 2 ^ 8 := feistelRound_lt hft _ _
    have hresult := s.answered_result_toNat _ hc (by omega)
    refine ⟨_, _, exec_fround_of_lt ha hb, exec_fround_of_lt (hresult.trans_lt hc) hb, hresult.trans_lt hc, ?_, ?_⟩
    · rw [hresult, feistelRound_mod]
    · calc toWord (feistelRound s.tables (s.answered (feistelRound s.tables s.opa.toNat s.opb.toNat)).result.toNat s.opb.toNat)
        _ = toWord s.opa.toNat := by rw [hresult, feistelRound_feistelRound hft ha]
        _ = s.opa := toWord_toNat s.opa

/-! ## FFUNC -/

/-- An S-box under OUTER: the row from bits 3 and 0, the column from bits 2 and 1 (R164). -/
theorem sbox_outer (box : List (List (Fin 4))) {x : Nat} (hx : x < 16) :
    sbox .outer box x = ((box.getD (2 * (x / 8) + x % 2) []).getD (2 * (x / 4 % 2) + x / 2 % 2) 0).val := by
  have hrow : sboxRow .outer x = 2 * (x / 8) + x % 2 := by simp only [sboxRow, natField]; omega
  have hcol : sboxCol .outer x = 2 * (x / 4 % 2) + x / 2 % 2 := rfl
  rw [sbox, hrow, hcol]

/-- An S-box under SPLIT: the row from bits 3:2, the column from bits 1:0 (R164). -/
theorem sbox_split (box : List (List (Fin 4))) {x : Nat} (hx : x < 16) :
    sbox .split box x = ((box.getD (x / 4) []).getD (x % 4) 0).val := by
  have hrow : sboxRow .split x = x / 4 := by simp only [sboxRow, natField]; omega
  have hcol : sboxCol .split x = x % 4 := by simp only [sboxCol, natField]; omega
  rw [sbox, hrow, hcol]

/-- The round function with its S-box inputs named (R165). -/
theorem roundFunction_of_inputs {ft : FeistelTables} {r sk e t0 t1 : Nat} (hsk : sk < 2 ^ 8) (he : e = perm ft.ep 4 r)
    (h0 : t0 = e / 16 % 16 ^^^ sk / 16) (h1 : t1 = e % 16 ^^^ sk % 16) :
    roundFunction ft r sk = perm ft.p4 4 (sbox ft.sboxIndex ft.s0 t0 * 4 + sbox ft.sboxIndex ft.s1 t1) ∧ t0 < 16 ∧ t1 < 16 := by
  have hleft : sk / 16 % 16 = sk / 16 := by omega
  refine ⟨?_, ?_, ?_⟩
  · simp only [roundFunction, natField_left, natField_right]
    rw [hleft, ← he, ← h0, ← h1]
  · rw [h0]
    exact Nat.xor_lt_two_pow (n := 4) (Nat.mod_lt _ (by decide)) (by omega)
  · rw [h1]
    exact Nat.xor_lt_two_pow (n := 4) (Nat.mod_lt _ (by decide)) (Nat.mod_lt _ (by decide))

/-- FFUNC on a half and a subkey succeeds (R171). -/
theorem exec_ffunc_of_lt {s : State} (ha : s.opa.toNat < 2 ^ 4) (hb : s.opb.toNat < 2 ^ 8) :
    exec .ffunc s = .next (s.answered (roundFunction s.tables s.opa.toNat s.opb.toNat)) :=
  (roundCommand_answers (execFfunc_spec s)).2 ha hb

/-- Settles O46: the round function with its S-box inputs named, and the S-boxes under either indexing. -/
theorem ffuncResult : Obligations.FfuncResult := by
  unfold Obligations.FfuncResult
  refine ⟨decodeWord_encode (i := .ffunc) rfl, fun s => ⟨(roundCommand_answers (execFfunc_spec s)).1, ?_⟩⟩
  intro ha hb e t0 t1 he h0 h1
  obtain ⟨hround, ht0, ht1⟩ := roundFunction_of_inputs hb he h0 h1
  refine ⟨fun hix => ?_, fun hix => ?_⟩
  · rw [exec_ffunc_of_lt ha hb, hround, hix, sbox_outer _ ht0, sbox_outer _ ht1]
    rfl
  · rw [exec_ffunc_of_lt ha hb, hround, hix, sbox_split _ ht0, sbox_split _ ht1]
    rfl

/-! ## PERM -/

/-- The nine tables in the order of their selectors (R169). -/
def muTables : List MuTable := [.ip, .ipinv, .p10, .p8, .p4, .ep, .sw, .ls1, .ls2]

/-- A table of a legal record has as many entries as its output has bits (R162, R169). -/
theorem entries_length {ft : FeistelTables} (hft : ft.legal = true) (t : MuTable) : (t.entries ft).length = t.outputWidth := by
  obtain ⟨hp10, hp8, hip, hipinv, hep, hp4⟩ := legal_lengths hft
  match t with
  | .ip => exact hip
  | .ipinv => exact hipinv
  | .p10 => exact hp10
  | .p8 => exact hp8
  | .p4 => exact hp4
  | .ep => exact hep
  | .sw | .ls1 | .ls2 => rfl

/-- No output is wider than RESULT (R169). -/
theorem outputWidth_le (t : MuTable) : t.outputWidth ≤ 64 := by cases t <;> decide

/-- The answers of PERM with a table's selector: WIDTH, or the permuted operand (R169). -/
theorem exec_perm_answers (s : State) (t : MuTable) :
    (2 ^ t.inputWidth ≤ s.opa.toNat → exec (.perm t.selector) s = .next (s.failed 8#4)) ∧
      (s.opa.toNat < 2 ^ t.inputWidth →
        exec (.perm t.selector) s = .next (s.answered (perm (t.entries s.tables) t.inputWidth s.opa.toNat))) := by
  have hspec := execPerm_spec t.selector s
  simp only [← ofSelector_none_iff, ofSelector_selector, takeError_eq, State.complete_eq_answered, State.a] at hspec
  rcases hspec with ⟨hnone, -⟩ | ⟨t', ht', h⟩
  · cases hnone
  · obtain rfl := Option.some.inj ht'
    rcases h with ⟨ha, h⟩ | ⟨ha, h⟩
    · exact ⟨fun _ => h, fun ha' => absurd ha (Nat.not_le.mpr ha')⟩
    · exact ⟨fun ha' => absurd ha (Nat.not_lt.mpr ha'), fun _ => h⟩

/-- Output position `k` of a table of `n` entries is input position `T[k]`, positions counted from 1 (R10, R162). -/
theorem perm_testBit_position {table : List Nat} {n : Nat} (hn : table.length = n) (w v : Nat) {k : Nat} (h1 : 1 ≤ k) (hk : k ≤ n) :
    (perm table w v).testBit (n - k) = v.testBit (w - table.getD (k - 1) 0) := by
  subst hn
  have hlt : k - 1 < table.length := by omega
  rw [List.getD_eq_getElem _ _ hlt, ← perm_testBit w v table (k - 1) hlt]
  congr 1
  omega

/-- Settles O47: the nine rows are the nine tables, and each command gathers bits by its table. -/
theorem permResult : Obligations.PermResult := by
  unfold Obligations.PermResult
  refine ⟨fun sel hsel => decodeWord_encode (i := .perm sel) (decide_eq_true hsel), fun s sel hsel => ?_,
    fun s sel table w n hrow => ?_⟩
  · rcases execPerm_spec sel s with ⟨-, h⟩ | ⟨t, ht, -⟩
    · exact h.trans (congrArg Host.Outcome.next (takeError_eq s .permSel))
    · simp [(ofSelector_none_iff sel).mpr hsel] at ht
  · change _ ∈ muTables.map fun t => (t.selector, t.entries s.tables, t.inputWidth, t.outputWidth) at hrow
    obtain ⟨t, -, heq⟩ := List.mem_map.mp hrow
    cases heq
    obtain ⟨hwidth, hanswer⟩ := exec_perm_answers s t
    refine ⟨hwidth, fun hft ha => ⟨_, hanswer ha, rfl, ?_⟩⟩
    have hlen := entries_length hft t
    have hlt : perm (t.entries s.tables) t.inputWidth s.opa.toNat < 2 ^ t.outputWidth := hlen ▸ perm_lt _ _ _
    rw [s.answered_result_toNat _ hlt (outputWidth_le t)]
    exact ⟨hlt, fun k h1 hk => perm_testBit_position hlen _ _ h1 hk⟩

end Sys2Proof.Machine

/-! SUPPORT. Family 60_exceptions: taking an error and leaving the error state.

No commit set sets ERR, so a command that ends with ERR newly set took an error, and taking an error writes nothing but STATUS. From the
invariant follow the two facts that close the error state: the command that runs in it is CLEAR (R23), and reset is not asserted (R230). -/

namespace Sys2Proof.Machine

/-! ## Taking an error -/

/-- Every error but ILLEGAL has a code of 2 or more (R200). -/
theorem ErrCode.two_le_code {e : ErrCode} (he : e ≠ .illegal) : 2 ≤ e.code.toNat := by
  cases e with
  | illegal => exact absurd rfl he
  | _ => decide

/-- A command takes an error other than ILLEGAL, or its commit set leaves ERR as it was or clears it (R104, R105). -/
theorem ExecCase.takesError_or_err {i : Instr} {s t : State} (h : ExecCase i s t) :
    (∃ e, e ≠ .illegal ∧ t = s.takeError e) ∨ t.err = s.err ∨ t.err = false := by
  cases h with
  | error _ _ e he => exact .inl ⟨e, he, rfl⟩
  | clear => exact .inr (.inr (by simp [State.complete, clearCommit, State.err]))
  | _ => exact .inr (.inl (by simp [State.complete, State.err]))

/-- Settles O12: ERR is newly set only by taking an error. -/
theorem errorsArePrecise : Obligations.ErrorsArePrecise := by
  unfold Obligations.ErrorsArePrecise
  intro i s t hexec hs ht
  rcases (execCase_of_next hexec).takesError_or_err with ⟨e, he, rfl⟩ | hkept | hcleared
  · obtain ⟨-, hle⟩ := e.code_range
    exact ⟨e.code, ErrCode.two_le_code he, hle, takeError_eq s e⟩
  · simp [hkept, hs] at ht
  · simp [hcleared] at ht

/-! ## Leaving the error state -/

/-- No write of the window touches ERR (R31, R101, R102). -/
@[simp] theorem writeAt_err (s : State) (off : Nat) (v : Word) : (s.writeAt off v).err = s.err := by
  rcases writeAt_cases s off v with h | h | ⟨-, h⟩ | ⟨-, h | h | h⟩ | ⟨-, h⟩ <;> rw [h] <;>
    simp [State.err, acceptedStatus]

/-- The reset state is no error state (R230). -/
@[simp] theorem State.resetBlock_err (s : State) : s.resetBlock.err = false := by simp [State.err, Status.err]

/-- In the error state reset is not asserted (R230). -/
theorem Inv.released_of_err {s : State} (h : Inv s) (herr : s.err = true) : s.resetAsserted = false := by
  refine Bool.eq_false_iff.mpr fun hr => ?_
  rw [← h.resetHeld hr, State.resetBlock_err] at herr
  cases herr

/-- A command that completes in the error state is CLEAR, at its last engine step (R23, R101). -/
theorem Inv.engine_of_completes_in_error {s : State} (h : Inv s) (herr : s.err = true) {w : Word} {lat : Nat}
    (he : s.engine = .busy w lat) (hlat : lat ≤ 1) : s.engine = .busy clearWord 1 := by
  have hbusy : s.busy = true := h.busyIsEngine.mpr (by simp [he])
  obtain ⟨l, hclear⟩ := h.errBusyIsClear herr hbusy
  obtain ⟨rfl, rfl⟩ := Engine.busy.inj (he.symm.trans hclear)
  have hone : lat = 1 := le_antisymm hlat (h.engineRuns _ _ he).1
  rw [he, hone]

/-- Settles O15, by the ways a step can answer: all keep ERR but a completion and an asserted reset, and a completion in the error state is
CLEAR's. -/
theorem errorStateLeftOnlyByClearOrReset : Obligations.ErrorStateLeftOnlyByClearOrReset := by
  unfold Obligations.ErrorStateLeftOnlyByClearOrReset
  intro s t h hst herr hleft
  have kept : t.err ≠ s.err := by simp [herr, hleft]
  cases step_cases hst with
  | hostWrite _ off v => exact absurd (writeAt_err s.turnTaken.advance off v) kept
  | engineCompletes ht _ w lat he hlat => exact .inl ⟨ht, h.engine_of_completes_in_error herr he hlat⟩
  | engineIllegal ht _ w lat he hlat => exact .inl ⟨ht, h.engine_of_completes_in_error herr he hlat⟩
  | assertReset ht => exact .inr ht
  | releaseReset =>
    rw [State.releaseReset_of_released (s := s.turnTaken) (h.released_of_err herr)] at kept
    exact absurd rfl kept
  | _ => exact absurd rfl kept

end Sys2Proof.Machine

/-! SUPPORT. Family 70_reset_and_hazards: reset, and the end of a running command in an infinite run.

The reset state is `State.resetBlock`, so asserting and releasing reset share one lemma about what the window then reads. A step taken while a
command runs leaves it running, counts its latency down, or ends it (`RunningStep`); the engine's turn comes again and again, so the latency
runs out. -/

namespace Sys2Proof.Machine

/-! ## Reset -/

/-- Every register of the window reads 0 in the reset state, whether the reset input is still asserted or released (R20, R230). -/
theorem readReg_resetBlock (s : State) (b : Bool) (r : Reg) : State.readReg { s.resetBlock with resetAsserted := b } r = 0#64 := by
  cases r <;> rfl

/-- While reset is asserted the engine does nothing (R230). -/
theorem engineStep_held {s : State} (hr : s.resetAsserted = true) : engineStep s = .next s := if_pos hr

/-- Releasing an asserted reset leaves the block in the reset state (R230). -/
theorem State.releaseReset_of_asserted {s : State} (hr : s.resetAsserted = true) :
    s.releaseReset = { s.resetBlock with resetAsserted := false } := if_pos hr

/-- The turn that asserts reset. -/
theorem step_assertReset {s : State} (ht : s.nextTurn = .assertReset) : step s = .next s.turnTaken.assertReset := by
  rw [step, ht]
  rfl

/-- The turn that releases reset. -/
theorem step_releaseReset {s : State} (ht : s.nextTurn = .releaseReset) : step s = .next s.turnTaken.releaseReset := by
  rw [step, ht]
  rfl

/-- Settles O30, by what each turn of the reset input and the engine's held turn do. -/
theorem resetZeroesTheBlock : Obligations.ResetZeroesTheBlock := by
  unfold Obligations.ResetZeroesTheBlock
  refine ⟨readReg_resetBlock State.reset false, rfl, fun s ht => ?asserted, fun s ht hr => ?held, fun s ht hr => ?released⟩
  case asserted => exact ⟨_, step_assertReset ht, readReg_resetBlock s.turnTaken true, rfl, rfl, rfl⟩
  case held => rw [step_engine ht, engineStep_held (s := s.turnTaken) hr]
  case released =>
    refine ⟨{ s.turnTaken.resetBlock with resetAsserted := false }, ?_, readReg_resetBlock s.turnTaken false, rfl, rfl, rfl⟩
    rw [step_releaseReset ht, State.releaseReset_of_asserted (s := s.turnTaken) hr]

/-! ## Fairness -/

/-- Settles O17: the engine's turn comes again and again, whatever runs. -/
theorem everyRunIsFairToEngine : Obligations.EveryRunIsFairToEngine := by
  unfold Obligations.EveryRunIsFairToEngine
  exact fun r hrun n _ => hrun.exists_engineTurn n

/-! ## One step of a running command -/

/-- While a command runs reset is not asserted (R230). -/
theorem Inv.released_of_running {s : State} (h : Inv s) {w : Word} {lat : Nat} (he : s.engine = .busy w lat) :
    s.resetAsserted = false := by
  refine Bool.eq_false_iff.mpr fun hr => ?_
  rw [← h.resetHeld hr, State.resetBlock_engine] at he
  cases he

/-- The step from `s` to `t` ends the running command: the engine completes it, or reset abandons it (R104, R105, R230). -/
def EndsCommand (s t : State) : Prop :=
  t.engine = .idle ∧ ((s.nextTurn = .engine ∧ t.done = true) ∨ s.nextTurn = .assertReset)

/-- What a step does to the running command `w` with `lat` engine steps left (R106, R230). -/
inductive RunningStep (w : Word) (lat : Nat) (s t : State) : Prop where
  | waits (ht : s.nextTurn ≠ .engine) (he : t.engine = .busy w lat)
  | counts (hlat : 1 < lat) (he : t.engine = .busy w (lat - 1))
  | ends (h : EndsCommand s t)

/-- Every step of a running command is one of the three, by the ways a step can answer: no write starts another command while BUSY = 1, and
releasing reset does nothing. -/
theorem runningStep_of_inv {s t : State} (h : Inv s) {w : Word} {lat : Nat} (he : s.engine = .busy w lat) (hst : step s = .next t) :
    RunningStep w lat s t := by
  cases step_cases hst with
  | hostIdle ht | hostRead ht | hostWaits ht | hostWaited ht => exact .waits (by simp [ht]) he
  | hostWrite ht off v =>
    have hb : s.busy = true := h.busyIsEngine.mpr (by simp [he])
    refine .waits (by simp [ht]) ?_
    rcases writeAt_busy (s := s.turnTaken.advance) hb off v with hw | hw <;> rw [hw] <;> exact he
  | engineHeld _ hr => simp [h.released_of_running he] at hr
  | engineIdle _ _ hidle => simp [he] at hidle
  | engineCounts _ _ w' lat' he' hl =>
    obtain ⟨rfl, rfl⟩ := Engine.busy.inj (he.symm.trans he')
    exact .counts hl rfl
  | engineCompletes ht _ _ _ _ _ _ _ _ hx =>
    have hcase := execCase_of_next hx
    exact .ends ⟨hcase.idle, .inl ⟨ht, hcase.busy_done.2⟩⟩
  | engineIllegal ht => exact .ends ⟨rfl, .inl ⟨ht, Status.done_erroredStatus s.status .illegal⟩⟩
  | assertReset ht => exact .ends ⟨rfl, .inr ht⟩
  | releaseReset ht =>
    rw [State.releaseReset_of_released (s := s.turnTaken) (h.released_of_running he)]
    exact .waits (by simp [ht]) he

/-! ## The end of a running command -/

/-- The command `w` is the engine's from step `n` to step `m` of the run, and step `m` ends it. -/
def RunsUntil (r : Nat → State) (w : Word) (n m : Nat) : Prop :=
  n ≤ m ∧ (∀ j, n ≤ j → j ≤ m → ∃ lat, (r j).engine = .busy w lat) ∧ EndsCommand (r m) (r (m + 1))

section RunsUntil
variable {r : Nat → State} {w : Word} {n lat : Nat} (he : (r n).engine = .busy w lat)
include he

/-- A command that ends in this step has run until now. -/
theorem runsUntil_now (hend : EndsCommand (r n) (r (n + 1))) : RunsUntil r w n n :=
  ⟨le_rfl, fun _ hn hj => ⟨lat, le_antisymm hn hj ▸ he⟩, hend⟩

/-- A command that runs now and from the next step until `m` runs until `m`. -/
theorem RunsUntil.of_succ {m : Nat} (h : RunsUntil r w (n + 1) m) : RunsUntil r w n m := by
  obtain ⟨hm, hruns, hend⟩ := h
  refine ⟨by omega, fun j hn hj => ?_, hend⟩
  rcases hn.eq_or_lt with rfl | hlt
  · exact ⟨lat, he⟩
  · exact hruns j hlt hj

end RunsUntil

/-- A running command ends, when a turn of the engine is `d` steps away (R106, R240). Recursion is on the latency and, for one
latency, on `d`. -/
theorem IsRun.exists_runsUntil_of_engineTurn {r : Nat → State} (hrun : IsRun r) {w : Word} {n lat : Nat} (h : Inv (r n))
    (he : (r n).engine = .busy w lat) (d : Nat) (hturn : (r (n + d)).nextTurn = .engine) : ∃ m, RunsUntil r w n m := by
  have hnext : Inv (r (n + 1)) := h.step (hrun n)
  cases runningStep_of_inv h he (hrun n) with
  | ends hend => exact ⟨n, runsUntil_now he hend⟩
  | counts hlat he' =>
    obtain ⟨e, hle, hturn'⟩ := hrun.exists_engineTurn (n + 1)
    obtain ⟨d', rfl⟩ := Nat.exists_eq_add_of_le hle
    obtain ⟨m, hm⟩ := hrun.exists_runsUntil_of_engineTurn hnext he' d' hturn'
    exact ⟨m, hm.of_succ he⟩
  | waits ht he' =>
    cases d with
    | zero => exact absurd hturn ht
    | succ d =>
      obtain ⟨m, hm⟩ := hrun.exists_runsUntil_of_engineTurn hnext he' d (by rwa [Nat.succ_add_eq_add_succ])
      exact ⟨m, hm.of_succ he⟩
termination_by (lat, d)

/-- A running command ends: the engine's turn comes (R240). -/
theorem IsRun.exists_runsUntil {r : Nat → State} (hrun : IsRun r) {w : Word} {n lat : Nat} (h : Inv (r n))
    (he : (r n).engine = .busy w lat) : ∃ m, RunsUntil r w n m := by
  obtain ⟨e, hne, hturn⟩ := hrun.exists_engineTurn n
  obtain ⟨d, rfl⟩ := Nat.exists_eq_add_of_le hne
  exact hrun.exists_runsUntil_of_engineTurn h he d hturn

/-- Settles O18: what a run is until the command's end is `RunsUntil`. -/
theorem runningCommandEndsInEveryRun : Obligations.RunningCommandEndsInEveryRun := by
  unfold Obligations.RunningCommandEndsInEveryRun
  exact fun r n w lat hrun h he => hrun.exists_runsUntil h he

end Sys2Proof.Machine

/-! SUPPORT. Family other: the model's own convention for running one word of the opcode table (log entry 4).

A table word that decodes is a legal command word, and `State.startWord` builds a state whose next step completes the word it is given. -/

namespace Sys2Proof.Machine

/-- A table row decodes to a command exactly when its bits fit one bus word that is legal (R80, R82). -/
theorem decodeTableWord_eq_some_iff {nbits w : Nat} {i : Instr} :
    decodeTableWord nbits w = some i ↔ w % 2 ^ nbits < 2 ^ 64 ∧ decodeWord (BitVec.ofNat 64 (w % 2 ^ nbits)) = .ok i := by
  rw [decodeTableWord, Option.ite_none_right_eq_some]
  refine and_congr_right fun _ => ?_
  cases decodeWord (BitVec.ofNat 64 (w % 2 ^ nbits)) with
  | error e => simp [Except.toOption]
  | ok j => simp [Except.toOption]

/-- A legal word started in the engine completes at the very next step, on the registers its acceptance leaves (R101, R103). -/
theorem step_startWord {w : Word} {i : Instr} (hd : decodeWord w = .ok i) (s : State) :
    step (s.startWord w) = exec i { s with
      status := acceptStatus s.status w
      engine := .busy w 1
      resetAsserted := false
      turns := s.turns + 1 } := by
  rw [step_completes_of_schedule (s.startWord_resetAsserted w) (s.startWord_engine w) hd (s.startWord_schedule w),
    State.startWord, acceptedStatus_eq]

/-- Settles O6: the table's word is legal, and `withFetchWord` starts it. -/
theorem fetchedWordRunsNext : Obligations.FetchedWordRunsNext := by
  unfold Obligations.FetchedWordRunsNext
  intro s w i h
  obtain ⟨-, hd⟩ := decodeTableWord_eq_some_iff.mp h
  exact ⟨_, step_startWord hd s, rfl⟩

end Sys2Proof.Machine
